-- ==== Sys2Proof/Word.lean ====
section
/-! DEFINITION. The word types of the core: 32-bit words, bytes, and register files of words (spec 00_scope.md R7). -/

namespace Sys2Proof

/-- "Every word is 32 bits and unsigned unless a width is written" (R7). Addition is modulo 2^32 (R8, R120). -/
abbrev Word := BitVec 32

/-- One byte of key, nonce or data. -/
abbrev Byte := BitVec 8

/-- Sixteen words: the state matrix, `X`, `DIN` and `DOUT` (R20). -/
abbrev Words16 := Vector Word 16

/-- A transaction word (30_encoding.md R90): bit 39 `we`, bits 38:32 `widx`, bits 31:0 `wdata`. -/
abbrev Tw := BitVec 40

/-- An engine control word (30_encoding.md R97): bits 8:7 `PHASE`, bits 6:0 `Q`. -/
abbrev Ew := BitVec 9

/-- Sixteen zero words: what `X`, `DIN` and `DOUT` hold after Reset (R44) and `X`, `DOUT` after a fault (R226). -/
def zeros16 : Words16 := Vector.replicate 16 0

end Sys2Proof
end

