-- ==== Sys2Proof/Config.lean ====
section
/-! DEFINITION. The parameters of the core (spec 00_scope.md R5) and its fixed quantities (R2). -/

namespace Sys2Proof

/-- The legal values of the parameter `QR_LANES`: how many quarter-rounds one step E.QR performs (R5). The
parameter is OPEN; every claim over a state holds for all three (log 1). -/
inductive Lanes where
  | one
  | two
  | four
deriving DecidableEq, Repr

/-- `QR_LANES` as a number. -/
def Lanes.count : Lanes → Nat
  | .one => 1
  | .two => 2
  | .four => 4

/-- `Q mod QR_LANES = 0`: the condition on `q` of the opcode row `E.QR` (30_encoding.md R95) and of R45 (d). -/
def Lanes.admits (L : Lanes) (q : BitVec 7) : Bool := q.toNat % L.count == 0

/-- `STEPS_PER_BLOCK = 2 + 80 / QR_LANES` (R5, R264). -/
def Lanes.stepsPerBlock (L : Lanes) : Nat := 2 + 80 / L.count

/-- The value of `QR_LANES` that `State.reset` holds. DESIGN CHOICE (log 1): R5 says "OPEN (default 4)". -/
def Config.defaultLanes : Lanes := .four

/-- The four constant words (10_state.md R33, R2): "expa", "nd 3", "2-by", "te k" read little-endian. -/
def Config.const0 : Word := 0x61707865
@[inherit_doc Config.const0] def Config.const1 : Word := 0x3320646e
@[inherit_doc Config.const0] def Config.const2 : Word := 0x79622d32
@[inherit_doc Config.const0] def Config.const3 : Word := 0x6b206574

end Sys2Proof
end

