-- ==== Sys2Proof/Syntax.lean ====
section
/-! DEFINITION. The instructions of the core: the 18 rows of spec/opcode_table.json (30_encoding.md R95), one constructor
each. Six reads, five writes that are no commands, four command forms, three Engine steps. -/

namespace Sys2Proof

/-- What a Host access (a transaction word) or the Engine's sequencer (an engine control word) asks of the core. -/
inductive Instr where
  /-- `RDSTAT` (R180): read `STATUS`. -/
  | rdstat
  /-- `RDLENS` (R181): read `LENS`. -/
  | rdlens
  /-- `RDCTR` (R182): read `CTR`. -/
  | rdctr
  /-- `RDDIN i` (R183): read `DIN[i]`. -/
  | rddin (i : Fin 16)
  /-- `RDDOUT i` (R184): read `DOUT[i]`. -/
  | rddout (i : Fin 16)
  /-- `RDZERO` (R185): read a write-only or reserved register, at word index `widx`. -/
  | rdzero (widx : BitVec 7)
  /-- `KEYB b` (R186): deliver the next key byte. -/
  | keyb (b : Byte)
  /-- `NONCEB b` (R187): deliver the next nonce byte. -/
  | nonceb (b : Byte)
  /-- `SETCTR w` (R188): write the block counter. -/
  | setctr (w : Word)
  /-- `DIN i, w` (R189): write input data word `i`. -/
  | din (i : Fin 16) (w : Word)
  /-- `NOP` (R200): the command word 0. -/
  | nop
  /-- `GO n` (R201): process one block of `n` bytes; the field has 7 bits, legal up to 64. -/
  | go (n : BitVec 7)
  /-- `CLR` (R202): the command word 2. -/
  | clr
  /-- `ILLCMD` (R203): a command word `v` that is not legal. -/
  | illcmd (v : Word)
  /-- `WRIGN` (R190): write `v` to a read-only or reserved register, at word index `widx`. -/
  | wrign (widx : BitVec 7) (v : Word)
  /-- `E.INIT` (R127): load the working array. -/
  | einit
  /-- `E.QR q` (R128): `QR_LANES` quarter-rounds, the first of them number `q`. -/
  | eqr (q : BitVec 7)
  /-- `E.FINAL` (R155): feed-forward, XOR, counter increment, completion. -/
  | efinal
deriving DecidableEq, Repr

/-- The formats of R91. -/
inductive Format where
  | rd
  | wr
  | cmd
  | eng
deriving DecidableEq, Repr

/-- The format of each row of the opcode table. -/
def Instr.format : Instr → Format
  | .rdstat | .rdlens | .rdctr | .rddin _ | .rddout _ | .rdzero _ => .rd
  | .keyb _ | .nonceb _ | .setctr _ | .din _ _ | .wrign _ _ => .wr
  | .nop | .go _ | .clr | .illcmd _ => .cmd
  | .einit | .eqr _ | .efinal => .eng

end Sys2Proof
end

