-- ==== Sys2Proof/WellFormed.lean ====
section
/-! DEFINITION. Which terms of `Instr` are instructions of the core: the extra conditions of the opcode table
(30_encoding.md R95) and of the command word (R93, 43_host_commands.md R203). -/

namespace Sys2Proof

/-- `widx` of a readable register: `STATUS`, `LENS`, `CTR`, `DIN[i]`, `DOUT[i]` (20_memory.md R62). -/
def readableIndex (widx : BitVec 7) : Bool :=
  widx == 1 || widx == 2 || widx == 3 || (16 ≤ widx.toNat && widx.toNat < 48)

/-- `widx` of a register whose write has a meaning of its own: `CTRL`, `CTR`, `KEYB`, `NONCEB`, `DIN[i]` (R62). -/
def writableIndex (widx : BitVec 7) : Bool :=
  widx == 0 || widx == 3 || widx == 4 || widx == 5 || (16 ≤ widx.toNat && widx.toNat < 32)

/-- "A word `v` is a legal GO word if and only if `v[3:0] = 1`, `v[7:4] = 0`, `v[31:15] = 0` and `v[14:8] <= 64`" (R203). -/
def goWord (v : Word) : Bool :=
  v.extractLsb' 0 4 == 1 && v.extractLsb' 4 4 == 0 && v.extractLsb' 15 17 == 0 && (v.extractLsb' 8 7).toNat ≤ 64

/-- A legal command word: NOP, CLR, or a legal GO word (R93, R203). -/
def legalCommand (v : Word) : Bool := v == 0 || v == 2 || goWord v

/-- The operands of an instruction lie where its row of the opcode table puts them, on a core with `QR_LANES = L`. -/
def Instr.wf (L : Lanes) : Instr → Bool
  | .rdzero widx => !readableIndex widx
  | .wrign widx _ => !writableIndex widx
  | .go n => n.toNat ≤ 64
  | .illcmd v => !legalCommand v
  | .eqr q => q.toNat < 80 && L.admits q
  | .rdstat | .rdlens | .rdctr | .rddin _ | .rddout _ => true
  | .keyb _ | .nonceb _ | .setctr _ | .din _ _ => true
  | .nop | .clr | .einit | .efinal => true

end Sys2Proof
end

