-- ==== Sys2Proof/Decode.lean ====
section
/-! DEFINITION. Decoding of transaction words and engine control words, and their encoder (spec 30_encoding.md). Every
transaction word is an instruction (the catch-all rows take what is left, R95); an engine control word may be none,
and is then rejected by name. -/

namespace Sys2Proof

/-! ### The fields of a transaction word (R90, R91, R94) -/

/-- `we`: 1 for a write. -/
def twWe (t : Tw) : Bool := t.getLsbD 39
/-- `widx`, the word index. -/
def twIndex (t : Tw) : BitVec 7 := t.extractLsb' 32 7
/-- `wdata`, the word written. -/
def twData (t : Tw) : Word := t.extractLsb' 0 32

/-- The transaction word of its three fields. -/
def mkTw (we : Bool) (widx : BitVec 7) (wdata : Word) : Tw := BitVec.ofBool we ++ widx ++ wdata

/-- `widx[6:4]`, the bank (R92): 1 selects `DIN`, 2 selects `DOUT`. -/
def bankOf (widx : BitVec 7) : BitVec 3 := widx.extractLsb' 4 3
/-- `widx[3:0]`, the register within the bank (R92, R94 (c)). -/
def bankReg (widx : BitVec 7) : Fin 16 := (widx.extractLsb' 0 4).toFin
/-- The word index of register `i` of a bank (R62). -/
def bankIndex (bank : BitVec 3) (i : Fin 16) : BitVec 7 := bank ++ BitVec.ofFin (w := 4) i

/-- `blen = v[14:8]` of a command word (R93, R94 (a)). -/
def blenField (v : Word) : BitVec 7 := v.extractLsb' 8 7

/-- The command word of `GO n`: `(n << 8) | 1` (R201). -/
def goCommand (n : BitVec 7) : Word := n.setWidth 32 <<< 8 ||| 1

/-! ### Decoding -/

/-- The rows of format RD, top to bottom (R95). -/
def decodeRead (widx : BitVec 7) : Instr :=
  if widx = 1 then .rdstat
  else if widx = 2 then .rdlens
  else if widx = 3 then .rdctr
  else if bankOf widx = 1 then .rddin (bankReg widx)
  else if bankOf widx = 2 then .rddout (bankReg widx)
  else .rdzero widx

/-- The rows of format CMD: the command word `v` (R93, R95, R203). -/
def decodeCommand (v : Word) : Instr :=
  if v = 0 then .nop
  else if goWord v then .go (blenField v)
  else if v = 2 then .clr
  else .illcmd v

/-- The rows of format WR (R95); bits 31:8 of a byte port's word are ignored (R94 (b)). -/
def decodeWrite (widx : BitVec 7) (v : Word) : Instr :=
  if widx = 4 then .keyb (v.extractLsb' 0 8)
  else if widx = 5 then .nonceb (v.extractLsb' 0 8)
  else if widx = 3 then .setctr v
  else if bankOf widx = 1 then .din (bankReg widx) v
  else .wrign widx v

/-- The instruction of a transaction word; "the decode of a `TW` depends on the `TW` alone" (R99). -/
def decodeTw (t : Tw) : Instr :=
  if twWe t then
    if twIndex t = 0 then decodeCommand (twData t) else decodeWrite (twIndex t) (twData t)
  else decodeRead (twIndex t)

/-- Why a word is no instruction. -/
inductive DecodeReject where
  /-- `PHASE = 0`, `Q = 0`: the Engine has no step (R97). -/
  | engineIdle
  /-- A control word that rule R45 excludes (R97: "a model may refuse any other value"). -/
  | reservedEngineWord
deriving DecidableEq, Repr

/-- The step an engine control word selects, on a core with `QR_LANES = L` (R95, R97). -/
def decodeEw (L : Lanes) (e : Ew) : Except DecodeReject Instr :=
  let phase := e.extractLsb' 7 2
  let q := e.extractLsb' 0 7
  if e = 0 then .error .engineIdle
  else if e = 0x080 then .ok .einit
  else if phase = 2 ∧ q.toNat < 80 ∧ L.admits q then .ok (.eqr q)
  else if e = 0x1D0 then .ok .efinal
  else .error .reservedEngineWord

/-- A word that selects an instruction: what the Host's port carries, or the Engine's sequencer. -/
inductive Code where
  | tw (t : Tw)
  | ew (e : Ew)
deriving DecidableEq, Repr

/-- Decoding of either kind of word. -/
def decode (L : Lanes) : Code → Except DecodeReject Instr
  | .tw t => .ok (decodeTw t)
  | .ew e => decodeEw L e

/-! ### Encoding (the patterns of R95; ignored bits are written as zero, log 8) -/

/-- A read access at `widx`. -/
def readTw (widx : BitVec 7) : Tw := mkTw false widx 0
/-- A write access of `v` at `widx`. -/
def writeTw (widx : BitVec 7) (v : Word) : Tw := mkTw true widx v

/-- The word of an instruction. -/
def encode : Instr → Code
  | .rdstat => .tw (readTw 1)
  | .rdlens => .tw (readTw 2)
  | .rdctr => .tw (readTw 3)
  | .rddin i => .tw (readTw (bankIndex 1 i))
  | .rddout i => .tw (readTw (bankIndex 2 i))
  | .rdzero widx => .tw (readTw widx)
  | .keyb b => .tw (writeTw 4 (b.setWidth 32))
  | .nonceb b => .tw (writeTw 5 (b.setWidth 32))
  | .setctr w => .tw (writeTw 3 w)
  | .din i w => .tw (writeTw (bankIndex 1 i) w)
  | .nop => .tw (writeTw 0 0)
  | .go n => .tw (writeTw 0 (goCommand n))
  | .clr => .tw (writeTw 0 2)
  | .illcmd v => .tw (writeTw 0 v)
  | .wrign widx v => .tw (writeTw widx v)
  | .einit => .ew 0x080
  | .eqr q => .ew ((2 : BitVec 2) ++ q)
  | .efinal => .ew 0x1D0

/-! ### Accesses by byte offset (20_memory.md R61, 30_encoding.md R100) -/

/-- The word index of a byte offset: `off / 4`, for `off` a multiple of 4 in `0x000..0x1FC`; no other access exists. -/
def indexOfOffset (off : Nat) : Option (BitVec 7) :=
  if off % 4 = 0 ∧ off < 0x200 then some (BitVec.ofNat 7 (off / 4)) else none

/-- `RegRead(off)`, script form `RD off`. -/
def regRead (off : Nat) : Option Tw := (indexOfOffset off).map readTw

/-- `RegWrite(off, v)`, script form `WR off, word`. -/
def regWrite (off : Nat) (v : Word) : Option Tw := (indexOfOffset off).map (writeTw · v)

/-! ### The opcode table as data (R95) -/

/-- One row of the table of R95 for a 40-bit word: it hits `t` when `t & mask = pattern` and the extra condition
holds; `build` is the instruction with the fields read from `t`. -/
structure TwRow where
  pattern : Tw
  mask : Tw
  extra : Tw → Bool
  build : Tw → Instr

/-- `w & mask = match` and the row's extra condition (R95). -/
def TwRow.hits (r : TwRow) (t : Tw) : Bool := t &&& r.mask == r.pattern && r.extra t

/-- The rows of format RD. -/
def rdRows : List TwRow := [
  ⟨0x0100000000, 0xFF00000000, fun _ => true, fun _ => .rdstat⟩,
  ⟨0x0200000000, 0xFF00000000, fun _ => true, fun _ => .rdlens⟩,
  ⟨0x0300000000, 0xFF00000000, fun _ => true, fun _ => .rdctr⟩,
  ⟨0x1000000000, 0xF000000000, fun _ => true, fun t => .rddin (t.extractLsb' 32 4).toFin⟩,
  ⟨0x2000000000, 0xF000000000, fun _ => true, fun t => .rddout (t.extractLsb' 32 4).toFin⟩,
  ⟨0x0000000000, 0x8000000000, fun _ => true, fun t => .rdzero (t.extractLsb' 32 7)⟩]

/-- The rows of the formats WR and CMD, in the order of the table of R95. -/
def wrRows : List TwRow := [
  ⟨0x8400000000, 0xFF00000000, fun _ => true, fun t => .keyb (t.extractLsb' 0 8)⟩,
  ⟨0x8500000000, 0xFF00000000, fun _ => true, fun t => .nonceb (t.extractLsb' 0 8)⟩,
  ⟨0x8300000000, 0xFF00000000, fun _ => true, fun t => .setctr (t.extractLsb' 0 32)⟩,
  ⟨0x9000000000, 0xF000000000, fun _ => true, fun t => .din (t.extractLsb' 32 4).toFin (t.extractLsb' 0 32)⟩,
  ⟨0x8000000000, 0xFFFFFFFFFF, fun _ => true, fun _ => .nop⟩,
  ⟨0x8000000001, 0xFFFFFF80FF, fun t => (t.extractLsb' 8 7).toNat ≤ 64, fun t => .go (t.extractLsb' 8 7)⟩,
  ⟨0x8000000002, 0xFFFFFFFFFF, fun _ => true, fun _ => .clr⟩,
  ⟨0x8000000000, 0xFF00000000, fun _ => true, fun t => .illcmd (t.extractLsb' 0 32)⟩,
  ⟨0x8000000000, 0x8000000000, fun _ => true, fun t => .wrign (t.extractLsb' 32 7) (t.extractLsb' 0 32)⟩]

/-- "A decoder tries the rows ... from top to bottom and takes the first that matches" (R95). -/
def decodeByRows (t : Tw) : Option Instr := ((rdRows ++ wrRows).find? (·.hits t)).map (·.build t)

/-! ### The host's numbering of the opcode table -/

/-- The instruction the decoder reads from a word numbered as spec/opcode_table.json numbers it. A row of 40 bits is a
transaction word; a row of 9 bits (16 in whole bytes) is an engine control word, decoded for `QR_LANES = 1`, under
which every `q < 80` is an instruction (log 9). -/
def decodeTableWord (nbits w : Nat) : Option Instr :=
  if nbits < 40 then
    if w < 2 ^ 9 then
      match decodeEw .one (BitVec.ofNat 9 w) with
      | .ok i => some i
      | .error _ => none
    else none
  else if w < 2 ^ 40 then some (decodeTw (BitVec.ofNat 40 w))
  else none

end Sys2Proof
end

