-- ==== Sys2Proof/Machine/State.lean ====
section
/-! DEFINITION. The state of the machine (spec 10_state.md R20, R44), its faults and refusals, and the state after
Reset. -/

namespace Sys2Proof.Machine

/-- `PHASE` (R36): which Engine step is next. -/
inductive Phase where
  | idle
  | init
  | round
  | final
deriving DecidableEq, Repr

/-- `PHASE` as its two bits: IDLE 0, INIT 1, ROUND 2, FINAL 3 (R36). -/
def Phase.bits : Phase → BitVec 2
  | .idle => 0
  | .init => 1
  | .round => 2
  | .final => 3

/-- The five faults of the core (60_exceptions.md R220). A fault is recorded in `ERRCODE` and the machine goes on,
locked (R226, R227): taking one is a NEXT state. -/
inductive FaultCode where
  /-- Code 1 (R221): GO while `KEY_CNT != 32`. -/
  | invalidKeyLength
  /-- Code 2 (R222): GO while `KEY_CNT = 32` and `NONCE_CNT != 12`. -/
  | invalidNonceLength
  /-- Code 3 (R223): `GO n`, `n >= 1`, lengths right, `CTR_OVF = 1`. -/
  | counterWrap
  /-- Code 4 (R229): a command word that is not legal, core idle and unlocked. -/
  | illegalCommand
  /-- Code 5 (R224): a gated write or command while `PHASE != IDLE`. -/
  | busyWrite
deriving DecidableEq, Repr

/-- The code that `ERRCODE` holds (R220). -/
def FaultCode.code : FaultCode → BitVec 4
  | .invalidKeyLength => 1
  | .invalidNonceLength => 2
  | .counterWrap => 3
  | .illegalCommand => 4
  | .busyWrite => 5

/-- What stops the machine with a fault: nothing. The spec's five faults are recorded in `ERRCODE` and the machine
goes on (R226, `FaultCode`); no rule stops it, so this type has no constructor (log 10). -/
inductive Fault where
deriving DecidableEq, Repr

/-- Why a step has no meaning in the model. -/
inductive Refusal where
  /-- An instruction without a meaning yet; raised by exec only. Safe: the model stops. -/
  | notModelled (mnemonic : String)
  /-- Raised by `E.INIT`, `E.QR`, `E.FINAL` run where the sequencer does not select them (R129: "at most one step").
  Safe: the hardware has no such step; no step of the machine raises it (log 6). -/
  | engineStepNotEnabled
  /-- Raised by the Engine's turn when `(PHASE, Q)` is a pair no run reaches (R45, R97: "a model may refuse any other
  value"). Safe: the model stops (log 5). -/
  | reservedEngineWord
deriving DecidableEq, Repr

/-- What happens next to the core from outside (R6, R71): the Host performs one access, the Engine gets a turn, or
the platform delivers Reset. One event is one step of the machine. -/
inductive Event where
  /-- One access at the Host's port, as its transaction word (R61, R90). -/
  | access (t : Tw)
  /-- The Engine takes its step, if it has one. -/
  | engine
  /-- The Reset event (R250). -/
  | reset
deriving DecidableEq, Repr

/-- The machine. The first fourteen fields are "the complete state of one core" (R20); the last three are the model's
own: inputs of the model and the Host's record (R6, R11; log 1, 2, 4). -/
structure State where
  /-- `KEY[0..7]` (R21). -/
  key : Vector Word 8
  /-- `KEY_CNT` (R22): key bytes delivered, saturating at 33. -/
  keyCnt : BitVec 6
  /-- `NONCE[0..2]` (R23). -/
  nonce : Vector Word 3
  /-- `NONCE_CNT` (R24): nonce bytes delivered, saturating at 13. -/
  nonceCnt : BitVec 4
  /-- `CTR` (R25): counter of the next block. -/
  ctr : Word
  /-- `CTR_OVF` (R26): `CTR` has wrapped. -/
  ctrOvf : Bool
  /-- `DIN[0..15]` (R27): input data. -/
  din : Words16
  /-- `DOUT[0..15]` (R28): output data. -/
  dout : Words16
  /-- `BLEN` (R30): data bytes of the block. -/
  blen : BitVec 7
  /-- `VALID` (R29): `DOUT` holds a result. -/
  valid : Bool
  /-- `ERRCODE` (R31): 0, or the code of the first fault. -/
  errcode : BitVec 4
  /-- `X[0..15]` (R32): the working array. -/
  x : Words16
  /-- `PHASE` (R36). -/
  phase : Phase
  /-- `Q` (R37): quarter-rounds done. -/
  q : BitVec 7
  /-- The parameter `QR_LANES` (R5); no step changes it (log 1). -/
  lanes : Lanes
  /-- The accesses, Engine turns and Resets still to come, first one first (R6, R71; log 2). -/
  script : List Event
  /-- The values RegRead has returned to the Host, newest first (R11; log 4). -/
  reads : List Word
deriving DecidableEq, Repr

/-- The machine right after Reset: every element of the core as the table of R44 says (all zero, `PHASE = IDLE`). The
last three fields are the model's: `QR_LANES = 4` (log 1), an empty script (log 2), nothing read yet (log 4). -/
def State.reset : State where
  key := Vector.replicate 8 0
  keyCnt := 0
  nonce := Vector.replicate 3 0
  nonceCnt := 0
  ctr := 0
  ctrOvf := false
  din := zeros16
  dout := zeros16
  blen := 0
  valid := false
  errcode := 0
  x := zeros16
  phase := .idle
  q := 0
  lanes := Config.defaultLanes
  script := []
  reads := []

end Sys2Proof.Machine
end

