-- ==== Sys2Proof/Machine/Operands.lean ====
section
/-! DEFINITION. Byte order and operand forms: bytes of words and of register files (20_memory.md R65 to R67), the mask
of a partial block (41_keystream_xor.md R150). -/

namespace Sys2Proof.Machine

/-- Byte `j` of a word: bits `[8j+7 : 8j]` (R65, R66). -/
def wordByte (w : Word) (j : Nat) : Byte := w.extractLsb' (8 * j) 8

/-- The word whose bytes 0 to 3 are given: `b0 | b1 << 8 | b2 << 16 | b3 << 24` (R8). -/
def joinBytes (b0 b1 b2 b3 : Byte) : Word :=
  b0.setWidth 32 ||| b1.setWidth 32 <<< 8 ||| b2.setWidth 32 <<< 16 ||| b3.setWidth 32 <<< 24

/-- `le32(b, i)` (R8): the little-endian word at byte index `i`. A byte beyond the string's end reads as zero; the
spec's uses lie within it, or pad with zero (30_encoding.md R101). -/
def le32 (b : List Byte) (i : Nat) : Word :=
  joinBytes (b.getD i 0) (b.getD (i + 1) 0) (b.getD (i + 2) 0) (b.getD (i + 3) 0)

/-- `bytes_le(w)` (R8): the four bytes of a word, least significant first. -/
def bytesLe (w : Word) : List Byte := [wordByte w 0, wordByte w 1, wordByte w 2, wordByte w 3]

/-- `w` with byte `j` replaced by `b`, "the other 24 bits keep their values" (42_host_register_access.md R186). -/
def putByte (w : Word) (j : Nat) (b : Byte) : Word :=
  w &&& ~~~((0xFF : Word) <<< (8 * j)) ||| b.setWidth 32 <<< (8 * j)

/-- Byte `p` of a register file, byte `4i + j` being byte `j` of word `i` (R66, R67); 0 beyond its end. -/
def fileByte {n : Nat} (v : Vector Word n) (p : Nat) : Byte := wordByte (v[p / 4]?.getD 0) (p % 4)

/-- A register file with byte `p` replaced by `b`: word `p / 4`, byte `p mod 4` (R186, R187). -/
def putFileByte {n : Nat} (v : Vector Word n) (p : Nat) (b : Byte) : Vector Word n :=
  v.setIfInBounds (p / 4) (putByte (v[p / 4]?.getD 0) (p % 4) b)

/-- The bytes of sixteen words, serialised little-endian (R65 (d), 40_block_transform.md R126 step 4). -/
def serialise (v : Words16) : List Byte := v.toList.flatMap bytesLe

/-- One byte of a mask: all ones where the byte lies below `n`. -/
def maskByte (n p : Nat) : Byte := if p < n then 0xFF else 0x00

/-- `Mask(n, i)` (R150): byte `j` is `0xFF` if `4i + j < n`, else `0x00`. -/
def mask (n i : Nat) : Word :=
  joinBytes (maskByte n (4 * i)) (maskByte n (4 * i + 1)) (maskByte n (4 * i + 2)) (maskByte n (4 * i + 3))

end Sys2Proof.Machine
end

