-- ==== Sys2Proof/Machine/Flags.lean ====
section
/-! DEFINITION. The status words and the counter's wrap: `STATUS`, `LENS` (10_state.md R40, R41), `Inc` and `Wrap`
(41_keystream_xor.md R154). -/

namespace Sys2Proof.Machine

/-- `BUSY`: `PHASE != IDLE` (R40). -/
def State.busy (s : State) : Bool := s.phase != .idle

/-- `ERR`: `ERRCODE != 0` (R40); the core is locked (60_exceptions.md R227). -/
def State.err (s : State) : Bool := s.errcode != 0

/-- A word with one bit that may be set. -/
def bitAt (b : Bool) (k : Nat) : Word := (BitVec.ofBool b).setWidth 32 <<< k

/-- The value of `STATUS` (R40, R180): bit 0 `BUSY`, 1 `VALID`, 2 `ERR`, 3 `CTR_OVF`, bits 11:8 `ERRCODE`, rest 0. -/
def statusWord (s : State) : Word :=
  bitAt s.busy 0 ||| bitAt s.valid 1 ||| bitAt s.err 2 ||| bitAt s.ctrOvf 3 ||| s.errcode.setWidth 32 <<< 8

/-- The value of `LENS` (R41, R181): bits 5:0 `KEY_CNT`, 11:8 `NONCE_CNT`, 22:16 `BLEN`, rest 0. -/
def lensWord (s : State) : Word :=
  s.keyCnt.setWidth 32 ||| s.nonceCnt.setWidth 32 <<< 8 ||| s.blen.setWidth 32 <<< 16

/-- `Inc(c) = (c + 1) mod 2^32` (R154). -/
def inc (c : Word) : Word := c + 1

/-- `Wrap(c)`: 1 if `c = 0xFFFFFFFF` (R154). -/
def wrap (c : Word) : Bool := c == 0xFFFFFFFF

end Sys2Proof.Machine
end

