-- ==== Sys2Proof/Machine/Cipher.lean ====
section
/-! DEFINITION. The reference functions of the algorithm: 40_block_transform.md Part A (R120 to R126) and
41_keystream_xor.md Part A (R151, R152). -/

namespace Sys2Proof.Machine

/-- `rotl32(v, n) = ((v << n) mod 2^32) | (v >> (32 - n))` (R8, R121). -/
def rotl32 (v : Word) (n : Nat) : Word := v <<< n ||| v >>> (32 - n)

/-- `QR4(a, b, c, d)` (R122): the quarter-round on four words given directly, line by line. -/
def qr4 (a b c d : Word) : Word × Word × Word × Word :=
  let a := a + b
  let d := rotl32 (d ^^^ a) 16
  let c := c + d
  let b := rotl32 (b ^^^ c) 12
  let a := a + b
  let d := rotl32 (d ^^^ a) 8
  let c := c + d
  let b := rotl32 (b ^^^ c) 7
  (a, b, c, d)

/-- Four indices of the state matrix. -/
structure Quad where
  a : Fin 16
  b : Fin 16
  c : Fin 16
  d : Fin 16
deriving DecidableEq, Repr

/-- `QR(x, a, b, c, d)` for four distinct indices (R122): the four words at them replaced, the twelve others
unchanged. -/
def qr (x : Words16) (i : Quad) : Words16 :=
  let r := qr4 x[i.a] x[i.b] x[i.c] x[i.d]
  (((x.set i.a r.1).set i.b r.2.1).set i.c r.2.2.1).set i.d r.2.2.2

/-- The quadruples of one double-round, `r = 0..7`, in order: the list of R123, which is the norm. -/
def quads : Vector Quad 8 := #v[
  ⟨0, 4, 8, 12⟩, ⟨1, 5, 9, 13⟩, ⟨2, 6, 10, 14⟩, ⟨3, 7, 11, 15⟩,
  ⟨0, 5, 10, 15⟩, ⟨1, 6, 11, 12⟩, ⟨2, 7, 8, 13⟩, ⟨3, 4, 9, 14⟩]

/-- `QIDX(q)` (R123): the quadruple of quarter-round number `q`. -/
def qidx (q : Nat) : Quad := quads[q % 8]'(Nat.mod_lt q (by decide))

/-- `n` quarter-rounds from number `q` on, in increasing order (R124, R128). -/
def qrRun : Nat → Nat → Words16 → Words16
  | _, 0, x => x
  | q, n + 1, x => qrRun (q + 1) n (qr x (qidx q))

/-- `ColumnRound` (R124): the quadruples `r = 0..3` in order. -/
def columnRound (x : Words16) : Words16 := qr (qr (qr (qr x (qidx 0)) (qidx 1)) (qidx 2)) (qidx 3)

/-- `DiagonalRound` (R124): the quadruples `r = 4..7` in order. -/
def diagonalRound (x : Words16) : Words16 := qr (qr (qr (qr x (qidx 4)) (qidx 5)) (qidx 6)) (qidx 7)

/-- `DoubleRound(x) = DiagonalRound(ColumnRound(x))` (R124). -/
def doubleRound (x : Words16) : Words16 := diagonalRound (columnRound x)

/-- `DoubleRound` applied `n` times. -/
def doubleRounds : Nat → Words16 → Words16
  | 0, x => x
  | n + 1, x => doubleRounds n (doubleRound x)

/-- `Rounds20` (R124): ten double-rounds. -/
def rounds20 (x : Words16) : Words16 := doubleRounds 10 x

/-- `InitState(K, c, N)` (R125): the constants, the key, the counter, the nonce. -/
def initState (k : Vector Word 8) (c : Word) (n : Vector Word 3) : Words16 := #v[
  Config.const0, Config.const1, Config.const2, Config.const3,
  k[0], k[1], k[2], k[3], k[4], k[5], k[6], k[7],
  c, n[0], n[1], n[2]]

/-- `x[i] + s[i]` for every `i`: the feed-forward addition (R126 step 3, R155). -/
def feedForward (x s : Words16) : Words16 := Vector.ofFn fun i => x[i] + s[i]

/-- `BlockWords(K, c, N)` (R126 step 3): the sixteen words of the keystream block. -/
def blockWords (k : Vector Word 8) (c : Word) (n : Vector Word 3) : Words16 :=
  feedForward (rounds20 (initState k c n)) (initState k c n)

/-- The eight little-endian words of a key (R21, R126 step 1). -/
def keyWords (key : List Byte) : Vector Word 8 := Vector.ofFn fun k => le32 key (4 * k)

/-- The three little-endian words of a nonce (R23, R126 step 1). -/
def nonceWords (nonce : List Byte) : Vector Word 3 := Vector.ofFn fun k => le32 nonce (4 * k)

/-- `Block(key, counter, nonce)` (R126): the 64 bytes of one keystream block. -/
def block (key : List Byte) (counter : Word) (nonce : List Byte) : List Byte :=
  serialise (blockWords (keyWords key) counter (nonceWords nonce))

/-- The number of blocks of a message: `(len(data) + 63) / 64` (R151). -/
def blockCount (len : Nat) : Nat := (len + 63) / 64

/-- The input bytes of block `b`: `data[64b .. 64b+63]`, fewer at the end (R151). -/
def chunk (data : List Byte) (b : Nat) : List Byte := (data.drop (64 * b)).take 64

/-- Input bytes XORed with the leading bytes of the block; "the block is truncated, not the input" (R151). -/
def xorBytes (data ks : List Byte) : List Byte := List.zipWith (· ^^^ ·) data ks

/-- Why `Process` has no value. -/
inductive ProcessError where
  /-- `len(key) != 32` (R151). -/
  | invalidKeyLength
  /-- `len(nonce) != 12` (R151). -/
  | invalidNonceLength
  /-- The counter would pass `0xFFFFFFFF`: outside the domain of R152 the spec gives no value (log 14). -/
  | outsideDomain
deriving DecidableEq, Repr

/-- The domain of `Process` in the counter and the length (R152). -/
def inDomain (c0 : Word) (len : Nat) : Bool := len == 0 || c0.toNat + blockCount len - 1 ≤ 0xFFFFFFFF

/-- The bytes of `Process` once the lengths are right (the loop of R151). -/
def processBytes (key nonce : List Byte) (c0 : Word) (data : List Byte) : List Byte :=
  (List.range (blockCount data.length)).flatMap fun b =>
    xorBytes (chunk data b) (block key (c0 + BitVec.ofNat 32 b) nonce)

/-- `Process(key, nonce, counterStart, data)` (R151, R152): the key is checked first. -/
def process (key nonce : List Byte) (c0 : Word) (data : List Byte) : Except ProcessError (List Byte) :=
  if key.length ≠ 32 then .error .invalidKeyLength
  else if nonce.length ≠ 12 then .error .invalidNonceLength
  else if inDomain c0 data.length then .ok (processBytes key nonce c0 data)
  else .error .outsideDomain

end Sys2Proof.Machine
end

