-- ==== Sys2Proof/Machine/Ops.lean ====
section
/-! DEFINITION. The operations that instructions share: taking a fault and leaving it (60_exceptions.md R226, R228),
the gate of every write (42_host_register_access.md R191, 43_host_commands.md R204), the read of the window
(20_memory.md R62), returning a value to the Host. -/

namespace Sys2Proof.Machine

/-- What a step answers. -/
abbrev Result := Host.Outcome State Fault Refusal

/-- `raise F` (R226): the fault entry, "exactly this". Everything it does not name keeps its value: `KEY`, `KEY_CNT`,
`NONCE`, `NONCE_CNT`, `CTR`, `CTR_OVF`, `DIN`, `BLEN`. -/
def State.raiseFault (f : FaultCode) (s : State) : State :=
  { s with errcode := f.code, phase := .idle, q := 0, x := zeros16, dout := zeros16, valid := false }

/-- The return from a fault, and all that CLR and Reset do (R228, R202, R250): every element of the core takes its
value of the table of R44. The model's own fields are no state of the core and stay (log 16). -/
def State.clearAll (s : State) : State :=
  { State.reset with lanes := s.lanes, script := s.script, reads := s.reads }

/-- The gate of R191, which is also cases (3) and (4) of R204: locked, the write is ignored; busy, it raises
`BusyWrite`; otherwise it is performed. -/
def gated (perform : State → State) (s : State) : State :=
  if s.errcode ≠ 0 then s
  else if s.phase ≠ .idle then s.raiseFault .busyWrite
  else perform s

/-- RegRead hands `v` to the Host; nothing of the core changes (R69). -/
def State.reply (v : Word) (s : State) : State := { s with reads := v :: s.reads }

/-- The value RegRead returns at word index `widx` (R62, R180 to R185): the read of the core's one address space.
Write-only and reserved indexes read zero (R63, R64). -/
def windowRead (s : State) (widx : BitVec 7) : Word :=
  if widx = 1 then statusWord s
  else if widx = 2 then lensWord s
  else if widx = 3 then s.ctr
  else if bankOf widx = 1 then s.din[bankReg widx]
  else if bankOf widx = 2 then s.dout[bankReg widx]
  else 0

end Sys2Proof.Machine
end

