-- ==== Sys2Proof/Machine/Engine.lean ====
section
/-! DEFINITION. The Engine's steps (spec 40_block_transform.md R127 to R129, 41_keystream_xor.md R155). Run where the
sequencer does not select it, a step is refused by name (log 6); no step of the machine does that. -/

namespace Sys2Proof.Machine

/-- The effect of `E.INIT` (R127). -/
def loadMatrix (s : State) : State :=
  { s with x := initState s.key s.ctr s.nonce, q := 0, phase := .round }

/-- `E.INIT` (R127): enabled when `PHASE = INIT`. -/
def execEinit (s : State) : Result :=
  if s.phase = .init then .next (loadMatrix s) else .refused .engineStepNotEnabled

/-- The effect of `E.QR` (R128): `QR_LANES` quarter-rounds from number `Q` on; `PHASE` becomes FINAL when the new `Q`
is 80. -/
def roundStep (s : State) : State :=
  let qn := s.q + BitVec.ofNat 7 s.lanes.count
  { s with
    x := qrRun s.q.toNat s.lanes.count s.x
    q := qn
    phase := if qn = 80 then .final else .round }

/-- `E.QR q` (R128): enabled when `PHASE = ROUND`; its operand `q` is `Q`, below 80 and a multiple of `QR_LANES` (R95). -/
def execEqr (q : BitVec 7) (s : State) : Result :=
  if s.phase = .round ∧ s.q = q ∧ q.toNat < 80 ∧ s.lanes.admits q then .next (roundStep s)
  else .refused .engineStepNotEnabled

/-- The output word `i` of a block: `(DIN[i] ^ O[i]) & Mask(BLEN, i)` (R155). -/
def outputWords (din o : Words16) (n : Nat) : Words16 := Vector.ofFn fun i => (din[i] ^^^ o[i]) &&& mask n i

/-- The effect of `E.FINAL` (R155), every right-hand side read from the state before the step. -/
def finishBlock (s : State) : State :=
  { s with
    dout := outputWords s.din (feedForward s.x (initState s.key s.ctr s.nonce)) s.blen.toNat
    x := zeros16
    ctrOvf := wrap s.ctr
    ctr := inc s.ctr
    valid := true
    q := 0
    phase := .idle }

/-- `E.FINAL` (R155): enabled when `PHASE = FINAL`. -/
def execEfinal (s : State) : Result :=
  if s.phase = .final then .next (finishBlock s) else .refused .engineStepNotEnabled

end Sys2Proof.Machine
end

