-- ==== Sys2Proof/Machine/HostAccess.lean ====
section
/-! DEFINITION. The Host's register accesses (spec 42_host_register_access.md): six reads, five writes. -/

namespace Sys2Proof.Machine

/-! ### Reads: performed in every phase and lock state (R191) -/

/-- `RDSTAT` (R180). -/
def execRdstat (s : State) : Result := .next (s.reply (statusWord s))

/-- `RDLENS` (R181). -/
def execRdlens (s : State) : Result := .next (s.reply (lensWord s))

/-- `RDCTR` (R182). -/
def execRdctr (s : State) : Result := .next (s.reply s.ctr)

/-- `RDDIN i` (R183). -/
def execRddin (i : Fin 16) (s : State) : Result := .next (s.reply s.din[i])

/-- `RDDOUT i` (R184); `VALID` is not cleared. -/
def execRddout (i : Fin 16) (s : State) : Result := .next (s.reply s.dout[i])

/-- `RDZERO` (R185): zero, whatever the write-only or reserved index. -/
def execRdzero (_widx : BitVec 7) (s : State) : Result := .next (s.reply 0)

/-! ### Writes -/

/-- The effect of `KEYB b` when performed (R186). -/
def putKeyByte (b : Byte) (s : State) : State :=
  if s.keyCnt.toNat < 32 then
    { s with key := putFileByte s.key s.keyCnt.toNat b, keyCnt := s.keyCnt + 1 }
  else { s with keyCnt := 33 }

/-- `KEYB b` (R186), through the gate of R191. -/
def execKeyb (b : Byte) (s : State) : Result := .next (gated (putKeyByte b) s)

/-- The effect of `NONCEB b` when performed (R187). -/
def putNonceByte (b : Byte) (s : State) : State :=
  if s.nonceCnt.toNat < 12 then
    { s with nonce := putFileByte s.nonce s.nonceCnt.toNat b, nonceCnt := s.nonceCnt + 1 }
  else { s with nonceCnt := 13 }

/-- `NONCEB b` (R187), through the gate of R191. -/
def execNonceb (b : Byte) (s : State) : Result := .next (gated (putNonceByte b) s)

/-- The effect of `SETCTR w` when performed (R188). -/
def putCounter (w : Word) (s : State) : State := { s with ctr := w, ctrOvf := false }

/-- `SETCTR w` (R188), through the gate of R191. -/
def execSetctr (w : Word) (s : State) : Result := .next (gated (putCounter w) s)

/-- The effect of `DIN i, w` when performed (R189). -/
def putDataWord (i : Fin 16) (w : Word) (s : State) : State := { s with din := s.din.set i w }

/-- `DIN i, w` (R189), through the gate of R191. -/
def execDin (i : Fin 16) (w : Word) (s : State) : Result := .next (gated (putDataWord i w) s)

/-- `WRIGN` (R190): nothing, in every phase and lock state. -/
def execWrign (_widx : BitVec 7) (_v : Word) (s : State) : Result := .next s

end Sys2Proof.Machine
end

