-- ==== Sys2Proof/Machine/HostCommand.lean ====
section
/-! DEFINITION. The Host's commands, the writes to `CTRL` (spec 43_host_commands.md). -/

namespace Sys2Proof.Machine

/-- `NOP` (R200): nothing, in every phase and lock state (case (2) of R204). -/
def execNop (s : State) : Result := .next s

/-- GO when performed, with a legal length (R201): "the first case that applies". -/
def startBlock (n : BitVec 7) (s : State) : State :=
  if s.keyCnt ≠ 32 then s.raiseFault .invalidKeyLength
  else if s.nonceCnt ≠ 12 then s.raiseFault .invalidNonceLength
  else if n = 0 then { s with blen := 0, dout := zeros16, valid := true }
  else if s.ctrOvf then s.raiseFault .counterWrap
  else { s with blen := n, dout := zeros16, valid := false, q := 0, phase := .init }

/-- Cases (5) and (6) of R204 for a word `GO n`: a length above 64 is an illegal command (R203). -/
def performGo (n : BitVec 7) (s : State) : State :=
  if n.toNat ≤ 64 then startBlock n s else s.raiseFault .illegalCommand

/-- `GO n` (R201), after cases (3) and (4) of R204. -/
def execGo (n : BitVec 7) (s : State) : Result := .next (gated (performGo n) s)

/-- `CLR` (R202): every element takes its reset value, in every phase and lock state (case (1) of R204). -/
def execClr (s : State) : Result := .next s.clearAll

/-- `ILLCMD` (R203): raises `IllegalCommand`, after cases (3) and (4) of R204. -/
def execIllcmd (_v : Word) (s : State) : Result := .next (gated (State.raiseFault .illegalCommand) s)

end Sys2Proof.Machine
end

