-- ==== Sys2Proof/Machine/Dispatch.lean ====
section
/-! DEFINITION. The meaning of every instruction: one arm per constructor of `Instr`. -/

namespace Sys2Proof.Machine

def exec (i : Instr) (s : State) : Host.Outcome State Fault Refusal :=
  match i with
  | .rdstat => Sys2Proof.Machine.execRdstat s
  | .rdlens => Sys2Proof.Machine.execRdlens s
  | .rdctr => Sys2Proof.Machine.execRdctr s
  | .rddin k => Sys2Proof.Machine.execRddin k s
  | .rddout k => Sys2Proof.Machine.execRddout k s
  | .rdzero widx => Sys2Proof.Machine.execRdzero widx s
  | .keyb b => Sys2Proof.Machine.execKeyb b s
  | .nonceb b => Sys2Proof.Machine.execNonceb b s
  | .setctr w => Sys2Proof.Machine.execSetctr w s
  | .din k w => Sys2Proof.Machine.execDin k w s
  | .nop => Sys2Proof.Machine.execNop s
  | .go n => Sys2Proof.Machine.execGo n s
  | .clr => Sys2Proof.Machine.execClr s
  | .illcmd v => Sys2Proof.Machine.execIllcmd v s
  | .wrign widx v => Sys2Proof.Machine.execWrign widx v s
  | .einit => Sys2Proof.Machine.execEinit s
  | .eqr q => Sys2Proof.Machine.execEqr q s
  | .efinal => Sys2Proof.Machine.execEfinal s

end Sys2Proof.Machine
end

