-- ==== Sys2Proof/Machine/Fetch.lean ====
section
/-! DEFINITION. How the machine finds its next instruction. The core fetches nothing (10_state.md R38): the Host's next
access stands in the script, and the Engine's next step is selected by the sequencer `(PHASE, Q)` (30_encoding.md R97). -/

namespace Sys2Proof.Machine

/-- The engine control word `EW = {PHASE[1:0], Q[6:0]}` (R97). -/
def engineWord (s : State) : Ew := s.phase.bits ++ s.q

/-- The Engine's turn (R129): its one step, if it has one; none when `PHASE = IDLE`, and then nothing changes (R6). A
pair `(PHASE, Q)` that no run reaches is refused by name (R97, log 5). -/
def engineTurn (s : State) : Result :=
  if s.phase = .idle then .next s
  else
    match decodeEw s.lanes (engineWord s) with
    | .ok i => exec i s
    | .error _ => .refused .reservedEngineWord

/-- The Reset event (R250): every element takes its reset value. -/
def resetEvent (s : State) : State := s.clearAll

/-- One event, already taken off the script (R6, R71). -/
def runEvent (e : Event) (s : State) : Result :=
  match e with
  | .access t => exec (decodeTw t) s
  | .engine => engineTurn s
  | .reset => .next (resetEvent s)

/-- One step of the machine. When the script is at its end the Host performs nothing more and the Engine has its turn:
"while `PHASE != IDLE` the Engine eventually steps" (R71). -/
def nextStep (s : State) : Result :=
  match s.script with
  | [] => engineTurn s
  | e :: rest => runEvent e { s with script := rest }

/-- The value of `PHASE` whose two bits are given (R36). -/
def phaseOfBits (b : BitVec 2) : Phase :=
  if b = 1 then .init else if b = 2 then .round else if b = 3 then .final else .idle

/-- The Host's next access is `t`. -/
def State.withAccess (s : State) (t : Tw) : State := { s with script := .access t :: s.script }

/-- The sequencer stands at the control word `e` and the Engine has the next turn. `QR_LANES` stays unless `Q` is no
multiple of it: such a word is an instruction of a core with `QR_LANES = 1` only (log 9). -/
def State.withEngineWord (s : State) (e : Ew) : State :=
  let q := e.extractLsb' 0 7
  { s with
    phase := phaseOfBits (e.extractLsb' 7 2)
    q := q
    lanes := if s.lanes.admits q then s.lanes else .one
    script := .engine :: s.script }

/-- The next instruction is the one whose word, numbered as the opcode table numbers it, is `w` (log 3, log 9). -/
def placeTableWord (s : State) (nbits w : Nat) : State :=
  if nbits < 40 then s.withEngineWord (BitVec.ofNat 9 w) else s.withAccess (BitVec.ofNat 40 w)

end Sys2Proof.Machine
end

