-- ==== Sys2Proof/Machine/Step.lean ====
section
/-! DEFINITION. One step of the machine, and the state whose next step runs a given word. -/

namespace Sys2Proof.Machine

/-- One step: one Host access, one Engine turn or one Reset (R6, R71). -/
def step (s : State) : Host.Outcome State Fault Refusal := nextStep s

/-- `s` with the opcode-table word `w` of `nbits` bits placed so that the very next step runs it (log 3). -/
def State.withFetchWord (s : State) (nbits w : Nat) : State := placeTableWord s nbits w

end Sys2Proof.Machine
end

