-- ==== Sys2Proof/Machine/HostScript.lean ====
section
/-! DEFINITION. The Host's side: the pseudo-instructions of 30_encoding.md R101 and the `PROCESS` sequence of
41_keystream_xor.md R161, run on the machine's own step (log 15). -/

namespace Sys2Proof.Machine

/-- The event of an instruction: a Host access for a transaction word, an Engine turn for an Engine step. -/
def eventOf (i : Instr) : Event :=
  match encode i with
  | .tw t => .access t
  | .ew _ => .engine

/-- The Host performs one event next, whatever else its script holds; none where the machine stops. -/
def perform (e : Event) (s : State) : Option State :=
  match step { s with script := e :: s.script } with
  | .next t => some t
  | .fault _ => none
  | .refused _ => none

/-- Several events, one after the other. -/
def performAll : List Event → State → Option State
  | [], s => some s
  | e :: es, s => (perform e s).bind (performAll es)

/-- Several instructions, one after the other. -/
def issue (is : List Instr) : State → Option State := performAll (is.map eventOf)

/-- The value the last RegRead returned. -/
def lastRead (s : State) : Word := s.reads.headD 0

/-- `LOADKEY b0 ... b(n-1)` (R101). -/
def loadKey (bs : List Byte) : List Instr := bs.map .keyb

/-- `LOADNONCE b0 ... b(n-1)` (R101). -/
def loadNonce (bs : List Byte) : List Instr := bs.map .nonceb

/-- The registers that hold the first `n` bytes of a block: `i = 0 .. (n + 3) / 4 - 1` (R101). -/
def blockRegs (n : Nat) : List (Fin 16) := (List.finRange 16).take ((n + 3) / 4)

/-- `LOADBLK b0 ... b(n-1)` (R101); the pad bytes of the last word are zero, "zero by convention". -/
def loadBlk (p : List Byte) : List Instr := (blockRegs p.length).map fun i => .din i (le32 p (4 * i))

/-- `READBLK n` (R101): the accesses. -/
def readBlk (n : Nat) : List Instr := (blockRegs n).map .rddout

/-- `READBLK n` (R101): the first `n` bytes of the words it returned. -/
def readBlkBytes (n : Nat) (ws : List Word) : List Byte := (ws.flatMap bytesLe).take n

/-- `WAIT` (R101): `RDSTAT` until bit 0 is 0, the Engine having one turn between two polls, at most `fuel` polls
(log 15). -/
def waitIdle : Nat → State → Option State
  | 0, s => some s
  | fuel + 1, s =>
    (perform (eventOf .rdstat) s).bind fun t =>
      if (lastRead t).getLsbD 0 then (perform .engine t).bind (waitIdle fuel) else some t

/-- Polls that `WAIT` may need: one more than the Engine has steps (R264). -/
def waitFuel (s : State) : Nat := s.lanes.stepsPerBlock + 1

/-- What the `PROCESS` sequence leaves in the Host's hands: the output read so far, and the code of the fault it stopped
on, if it did (R161; "the sequence stops with the output so far in the Host's hands and no more", R162). -/
structure Delivered where
  out : List Byte
  fault : Option (BitVec 4)
deriving DecidableEq, Repr

/-- `RDSTAT -> s ; if s[2] = 1 stop with fault s[11:8]`, else go on (R161); `out` is the output read so far. -/
def checkFault (out : List Byte) (s : State) (go : State → Option (State × Delivered)) : Option (State × Delivered) :=
  (perform (eventOf .rdstat) s).bind fun t =>
    if (lastRead t).getLsbD 2 then some (t, ⟨out, some ((lastRead t).extractLsb' 8 4)⟩) else go t

/-- The loop of the `PROCESS` sequence (R161): one block each round, the output so far in `out`. -/
def processLoop : List (List Byte) → List Byte → State → Option (State × Delivered)
  | [], out, s => some (s, ⟨out, none⟩)
  | d :: ds, out, s =>
    (issue (loadBlk d ++ [.go (BitVec.ofNat 7 d.length)]) s).bind fun s1 =>
      (waitIdle (waitFuel s1) s1).bind fun s2 =>
        checkFault out s2 fun s3 =>
          (issue (readBlk d.length) s3).bind fun s4 =>
            let ws := (s4.reads.take (blockRegs d.length).length).reverse
            processLoop ds (out ++ readBlkBytes d.length ws) s4

/-- The blocks of a message. -/
def chunks (data : List Byte) : List (List Byte) := (List.range (blockCount data.length)).map (chunk data)

/-- `PROCESS key, nonce, c0, data -> out` (R161), without the optional last CLR. -/
def processSequence (key nonce : List Byte) (c0 : Word) (data : List Byte) (s : State) :
    Option (State × Delivered) :=
  (issue (.clr :: loadKey key ++ loadNonce nonce ++ [.setctr c0]) s).bind fun s1 =>
    if data = [] then (issue [.go 0] s1).bind fun s2 => checkFault [] s2 fun s3 => some (s3, ⟨[], none⟩)
    else processLoop (chunks data) [] s1

end Sys2Proof.Machine
end

