-- ==== Sys2Proof/Safety.lean ====
section
/-! DEFINITION. Which states are reachable and which are final: the invariants of spec 10_state.md R45, the end of a
run of 00_scope.md R12. -/

namespace Sys2Proof.Machine

/-- The invariants of R45, (a) to (j), and the one that R184 adds (`invalid_zero`): "returns `0x00000000` whenever
`VALID = 0`". -/
structure CoreInv (s : State) : Prop where
  /-- (a) -/
  keyCnt_le : s.keyCnt.toNat ≤ 33
  /-- (a) -/
  nonceCnt_le : s.nonceCnt.toNat ≤ 13
  /-- (a) -/
  blen_le : s.blen.toNat ≤ 64
  /-- (a) -/
  errcode_le : s.errcode.toNat ≤ 5
  /-- (a) -/
  q_le : s.q.toNat ≤ 80
  /-- (b) -/
  idle_clean : s.phase = .idle → s.q = 0 ∧ s.x = zeros16
  /-- (c) -/
  init_clean : s.phase = .init → s.q = 0 ∧ s.x = zeros16
  /-- (d) -/
  round_q : s.phase = .round → s.q.toNat < 80 ∧ s.q.toNat % s.lanes.count = 0
  /-- (e) -/
  final_q : s.phase = .final → s.q = 80
  /-- (f) -/
  busy_clean : s.phase ≠ .idle → s.errcode = 0 ∧ s.valid = false ∧ s.ctrOvf = false ∧ s.keyCnt = 32 ∧
    s.nonceCnt = 12 ∧ 1 ≤ s.blen.toNat ∧ s.blen.toNat ≤ 64 ∧ s.dout = zeros16
  /-- (g) -/
  fault_clean : s.errcode ≠ 0 → s.phase = .idle ∧ s.valid = false ∧ s.dout = zeros16
  /-- (h) -/
  valid_idle : s.valid = true → s.phase = .idle ∧ s.errcode = 0
  /-- R184, R28 -/
  invalid_zero : s.valid = false → s.dout = zeros16
  /-- (i) -/
  dout_beyond : ∀ p, s.blen.toNat ≤ p → fileByte s.dout p = 0
  /-- (j) -/
  key_beyond : ∀ p, s.keyCnt.toNat ≤ p → fileByte s.key p = 0
  /-- (j) -/
  nonce_beyond : ∀ p, s.nonceCnt.toNat ≤ p → fileByte s.nonce p = 0

/-- `n` steps of the machine. -/
def runSteps (n : Nat) (s : State) : Result := Host.Core.run Sys2Proof.core n s

/-- How many turns the Engine gets in a script. -/
def engineTurns (es : List Event) : Nat := (es.filter (· = .engine)).length

/-- Every element of the core holds the value of the table of R44. -/
def State.atReset (s : State) : Prop :=
  s.key = Vector.replicate 8 0 ∧ s.keyCnt = 0 ∧ s.nonce = Vector.replicate 3 0 ∧ s.nonceCnt = 0 ∧ s.ctr = 0 ∧
  s.ctrOvf = false ∧ s.din = Vector.replicate 16 0 ∧ s.dout = Vector.replicate 16 0 ∧ s.blen = 0 ∧ s.valid = false ∧
  s.errcode = 0 ∧ s.x = Vector.replicate 16 0 ∧ s.phase = .idle ∧ s.q = 0

/-- The model's own fields, which are no state of the core, are the same in two states (log 16). -/
def State.sameInputs (s t : State) : Prop := t.lanes = s.lanes ∧ t.script = s.script ∧ t.reads = s.reads

/-- An access of the Host. -/
def Event.isAccess : Event → Bool
  | .access _ => true
  | .engine => false
  | .reset => false

/-- The end of a run (R12): every access performed, `PHASE = IDLE`, `ERRCODE = 0`. -/
def State.ended (s : State) : Prop :=
  (∀ e ∈ s.script, e.isAccess = false) ∧ s.phase = .idle ∧ s.errcode = 0

/-- A faulted run (R12): never final. -/
def State.faulted (s : State) : Prop := s.errcode ≠ 0

end Sys2Proof.Machine
end

