-- ==== Sys2Proof/Certificates/Slice0/Obligations.lean ====
section
/-! DEFINITION. The statements about the ChaCha20 cipher core, for the provers. Each formalises rules R<n> of spec/, named
in its docstring. -/

open Sys2Proof Sys2Proof.Machine

/-! ### Encoding -/

/-- Decoding the encoding of a well-formed instruction gives it back, for every value of `QR_LANES` (R95, R97). -/
def Obligations.DecodeOfEncode : Prop :=
  ∀ (L : Lanes) (i : Instr), i.wf L = true → decode L (encode i) = .ok i

/-- Whatever a word decodes to is well-formed (R93, R95, R97). -/
def Obligations.DecodedInstructionsAreWellFormed : Prop :=
  ∀ (L : Lanes) (c : Code) (i : Instr), decode L c = .ok i → i.wf L = true

/-- Encoding what a word decodes to gives the word back, its ignored bits set to zero: all data bits of a read, bits 31:8
of a byte port's word (R90, R94 (b), R98 (e); that the encoder writes them as zero is the model's choice, log 8). -/
def Obligations.EncodeOfDecode : Prop :=
  (∀ (widx : BitVec 7) (v : Word), encode (decodeTw (mkTw false widx v)) = .tw (mkTw false widx 0)) ∧
  (∀ (widx : BitVec 7) (v : Word), encode (decodeTw (mkTw true widx v)) =
    .tw (mkTw true widx (if widx = 4 ∨ widx = 5 then v &&& 0xFF else v))) ∧
  (∀ (L : Lanes) (e : Ew) (i : Instr), decodeEw L e = .ok i → encode i = .ew e)

/-- R95: the decoder takes the first row of the opcode table that matches. Transaction words: the table `rdRows`,
`wrRows` of masks and patterns. Engine control words: the three rows, no two of which match one word. -/
def Obligations.DecodingFollowsTheOpcodeTable : Prop :=
  (∀ t : Tw, decodeByRows t = some (decodeTw t)) ∧
  (∀ (L : Lanes) (e : Ew) (i : Instr), decodeEw L e = .ok i ↔
    (e &&& 0x1FF = 0x080 ∧ i = .einit) ∨
    (e &&& 0x180 = 0x100 ∧ (e &&& 0x07F).toNat < 80 ∧ (e &&& 0x07F).toNat % L.count = 0 ∧
      i = .eqr ((e &&& 0x07F).setWidth 7)) ∨
    (e &&& 0x1FF = 0x1D0 ∧ i = .efinal))

/-- R93: the command word. `op = v[3:0]`, `blen = v[14:8]`, the rest reserved and zero. -/
def Obligations.CommandWordsDecode : Prop :=
  ∀ v : Word,
    (decodeCommand v = .nop ↔ v = 0x00000000) ∧
    (decodeCommand v = .clr ↔ v = 0x00000002) ∧
    (∀ n : BitVec 7, decodeCommand v = .go n ↔
      v.toNat % 16 = 1 ∧ v.toNat / 16 % 16 = 0 ∧ v.toNat / 2 ^ 15 = 0 ∧ v.toNat / 256 % 128 = n.toNat ∧ n.toNat ≤ 64) ∧
    (∀ w : Word, decodeCommand v = .illcmd w ↔
      w = v ∧ v ≠ 0x00000000 ∧ v ≠ 0x00000002 ∧
        ¬ (v.toNat % 16 = 1 ∧ v.toNat / 16 % 16 = 0 ∧ v.toNat / 2 ^ 15 = 0 ∧ v.toNat / 256 % 128 ≤ 64))

/-- Words written out by the spec decode to the instructions it says they are (worked examples of R180 to R190, R200 to
R203, R97). -/
def Obligations.SpecWordsDecode : Prop :=
  decodeTw 0x0100000000 = .rdstat ∧ decodeTw 0x1300000000 = .rddin 3 ∧ decodeTw 0x2F00000000 = .rddout 15 ∧
  decodeTw 0x0400000000 = .rdzero 4 ∧ decodeTw 0x8400000003 = .keyb 3 ∧ decodeTw 0x850000004A = .nonceb 0x4A ∧
  decodeTw 0x8300000001 = .setctr 1 ∧ decodeTw 0x906964614C = .din 0 0x6964614C ∧ decodeTw 0x8000000000 = .nop ∧
  decodeTw 0x8000002401 = .go 36 ∧ decodeTw 0x8000000002 = .clr ∧ decodeTw 0x8000000003 = .illcmd 3 ∧
  decodeTw 0xA0FFFFFFFF = .wrign 32 0xFFFFFFFF ∧ decodeEw .four 0x080 = .ok .einit ∧
  decodeEw .four 0x14C = .ok (.eqr 76) ∧ decodeEw .four 0x1D0 = .ok .efinal

/-! ### The step -/

/-- A step runs the instruction it decodes (R6, R97, R99): an access runs its transaction word, the Engine's turn runs the
control word `(PHASE, Q)`, Reset clears the core. The model's choices: the script, of which one event is taken off, whose end
gives the Engine the turn, and in which a turn with `PHASE = IDLE` changes nothing else (DESIGN CHOICE, log 2; R71 leaves the
interleaving open), and the refusal of a control word that is no instruction (DEDUCED, log 5). -/
def Obligations.StepRunsTheDecodedInstruction : Prop :=
  (∀ (s : State) (t : Tw) (rest : List Event), s.script = .access t :: rest →
    step s = exec (decodeTw t) { s with script := rest }) ∧
  (∀ (s : State) (rest : List Event), (s.script = .engine :: rest ∨ s.script = [] ∧ rest = []) → s.phase ≠ .idle →
    (∀ i, decode s.lanes (.ew (engineWord s)) = .ok i → step s = exec i { s with script := rest }) ∧
    (∀ e, decode s.lanes (.ew (engineWord s)) = .error e → step s = .refused .reservedEngineWord)) ∧
  (∀ (s : State) (rest : List Event), (s.script = .engine :: rest ∨ s.script = [] ∧ rest = []) → s.phase = .idle →
    step s = .next { s with script := rest }) ∧
  (∀ (s : State) (rest : List Event), s.script = .reset :: rest → step s = .next { s with script := rest }.clearAll)

/-- R129: which step the Engine has, in every state that meets the invariants. It is deterministic, raises no fault, and
writes none of `KEY`, `NONCE`, the byte counters, `DIN`, `BLEN`, `ERRCODE`. -/
def Obligations.EngineHasTheStepOfItsPhase : Prop :=
  ∀ s : State, CoreInv s →
    (s.phase = .idle → engineTurn s = .next s) ∧
    (s.phase = .init → engineTurn s = exec .einit s) ∧
    (s.phase = .round → engineTurn s = exec (.eqr s.q) s) ∧
    (s.phase = .final → engineTurn s = exec .efinal s) ∧
    ∃ t, engineTurn s = .next t ∧ t.key = s.key ∧ t.nonce = s.nonce ∧ t.keyCnt = s.keyCnt ∧ t.nonceCnt = s.nonceCnt ∧
      t.din = s.din ∧ t.blen = s.blen ∧ t.errcode = s.errcode

/-! ### Reset and CLR -/

/-- R44, R202, R250: the state after Reset is the table of R44, and CLR and the Reset event lead to it from every state,
whatever the phase and the lock. That the model's own fields `lanes`, `script` and `reads` stay is the model's choice
(DESIGN CHOICE, log 16). -/
def Obligations.ResetAndClrGiveTheResetState : Prop :=
  State.reset.atReset ∧ decodeTw 0x8000000002 = .clr ∧
  (∀ s : State, ∃ t, exec .clr s = .next t ∧ t.atReset ∧ s.sameInputs t) ∧
  (∀ (s : State) (rest : List Event), s.script = .reset :: rest →
    ∃ t, step s = .next t ∧ t.atReset ∧ { s with script := rest }.sameInputs t)

/-- R251: after Reset or CLR every register of the window reads zero. -/
def Obligations.EveryRegisterReadsZeroAfterReset : Prop :=
  ∀ (s : State) (widx : BitVec 7), s.atReset → windowRead s widx = 0

/-! ### Reads -/

/-- R69, R191: a read in any phase and lock state returns the value of its register and changes nothing; the value is
recorded for the Host (the record is the model's, log 4). -/
def Obligations.ReadsReturnTheWindowAndChangeNothing : Prop :=
  ∀ (widx : BitVec 7) (v : Word) (s : State),
    exec (decodeTw (mkTw false widx v)) s = .next { s with reads := windowRead s widx :: s.reads }

/-- R180: `RDSTAT`, every bit of the value, and what R45 says of the values a Host can ever read. -/
def Obligations.RdstatReturnsTheFlags : Prop :=
  decodeTw 0x0100000000 = .rdstat ∧
  ∀ s : State, ∃ v : Word, exec .rdstat s = .next { s with reads := v :: s.reads } ∧
    v.getLsbD 0 = decide (s.phase ≠ .idle) ∧ v.getLsbD 1 = s.valid ∧ v.getLsbD 2 = decide (s.errcode ≠ 0) ∧
    v.getLsbD 3 = s.ctrOvf ∧ v.extractLsb' 4 4 = 0 ∧ v.extractLsb' 8 4 = s.errcode ∧ v.extractLsb' 12 20 = 0 ∧
    (CoreInv s → v.getLsbD 0 = true → v.getLsbD 1 = false ∧ v.getLsbD 2 = false ∧ v.getLsbD 3 = false) ∧
    (CoreInv s → v.getLsbD 2 = true → v.getLsbD 0 = false ∧ v.getLsbD 1 = false)

/-- R181: `RDLENS`, every bit of the value. -/
def Obligations.RdlensReturnsTheLengths : Prop :=
  decodeTw 0x0200000000 = .rdlens ∧
  ∀ s : State, ∃ v : Word, exec .rdlens s = .next { s with reads := v :: s.reads } ∧
    v.extractLsb' 0 6 = s.keyCnt ∧ v.extractLsb' 6 2 = 0 ∧ v.extractLsb' 8 4 = s.nonceCnt ∧ v.extractLsb' 12 4 = 0 ∧
    v.extractLsb' 16 7 = s.blen ∧ v.extractLsb' 23 9 = 0

/-- R182, R183, R184, R185: the four other reads. `RDDOUT` returns zero whenever `VALID = 0`, and for every word beyond
`BLEN`. -/
def Obligations.CounterAndDataReads : Prop :=
  (∀ s : State, exec .rdctr s = .next { s with reads := s.ctr :: s.reads }) ∧
  (∀ (i : Fin 16) (s : State), exec (.rddin i) s = .next { s with reads := s.din[i] :: s.reads }) ∧
  (∀ (i : Fin 16) (s : State), exec (.rddout i) s = .next { s with reads := s.dout[i] :: s.reads }) ∧
  (∀ (i : Fin 16) (s : State), CoreInv s → (s.valid = false ∨ (s.blen.toNat + 3) / 4 ≤ i.val) →
    exec (.rddout i) s = .next { s with reads := 0 :: s.reads }) ∧
  (∀ (widx : BitVec 7) (s : State), exec (.rdzero widx) s = .next { s with reads := 0 :: s.reads })

/-- R11, R21, R23, R185: what the Host reads does not depend on `KEY`, `NONCE`, `X`, `Q`, nor on `PHASE` beyond
`PHASE != IDLE`. -/
def Obligations.ReadsRevealNoSecret : Prop :=
  ∀ (s : State) (k : Vector Word 8) (n : Vector Word 3) (x : Words16) (p : Phase) (q : BitVec 7) (widx : BitVec 7),
    (p = .idle ↔ s.phase = .idle) →
    windowRead { s with key := k, nonce := n, x := x, phase := p, q := q } widx = windowRead s widx

/-! ### Writes -/

/-- R186: `KEYB b` in every state. Bits 31:8 of the word are ignored; the byte lands at index `KEY_CNT` in little-endian
order; the 33rd and later bytes are dropped and `KEY_CNT` is 33. -/
def Obligations.KeybAppendsAKeyByte : Prop :=
  (∀ v : Word, decodeTw (mkTw true 4 v) = .keyb (v.extractLsb' 0 8)) ∧
  (∀ (b : Byte) (s : State), s.errcode ≠ 0 → exec (.keyb b) s = .next s) ∧
  (∀ (b : Byte) (s : State), s.errcode = 0 → s.phase ≠ .idle → exec (.keyb b) s =
    .next { s with errcode := 5, phase := .idle, q := 0, x := zeros16, dout := zeros16, valid := false }) ∧
  (∀ (b : Byte) (s : State), s.errcode = 0 → s.phase = .idle → s.keyCnt.toNat < 32 →
    ∃ k : Vector Word 8, exec (.keyb b) s = .next { s with key := k, keyCnt := s.keyCnt + 1 } ∧
      ∀ p, p < 32 → fileByte k p = if p = s.keyCnt.toNat then b else fileByte s.key p) ∧
  (∀ (b : Byte) (s : State), s.errcode = 0 → s.phase = .idle → 32 ≤ s.keyCnt.toNat →
    exec (.keyb b) s = .next { s with keyCnt := 33 })

/-- R187: `NONCEB b` in every state; the 13th and later bytes are dropped and `NONCE_CNT` is 13. -/
def Obligations.NoncebAppendsANonceByte : Prop :=
  (∀ v : Word, decodeTw (mkTw true 5 v) = .nonceb (v.extractLsb' 0 8)) ∧
  (∀ (b : Byte) (s : State), s.errcode ≠ 0 → exec (.nonceb b) s = .next s) ∧
  (∀ (b : Byte) (s : State), s.errcode = 0 → s.phase ≠ .idle → exec (.nonceb b) s =
    .next { s with errcode := 5, phase := .idle, q := 0, x := zeros16, dout := zeros16, valid := false }) ∧
  (∀ (b : Byte) (s : State), s.errcode = 0 → s.phase = .idle → s.nonceCnt.toNat < 12 →
    ∃ k : Vector Word 3, exec (.nonceb b) s = .next { s with nonce := k, nonceCnt := s.nonceCnt + 1 } ∧
      ∀ p, p < 12 → fileByte k p = if p = s.nonceCnt.toNat then b else fileByte s.nonce p) ∧
  (∀ (b : Byte) (s : State), s.errcode = 0 → s.phase = .idle → 12 ≤ s.nonceCnt.toNat →
    exec (.nonceb b) s = .next { s with nonceCnt := 13 })

/-- R67: the n-th byte delivered is byte `n - 1`, and the bytes are assembled into words as R65 (a) and (b) say; any
number of bytes may be delivered (R101 `LOADKEY`, `LOADNONCE`). -/
def Obligations.LoadedBytesAssembleLittleEndian : Prop :=
  (∀ (s : State) (bs : List Byte), s.errcode = 0 → s.phase = .idle → s.keyCnt = 0 →
    ∃ k : Vector Word 8, issue (loadKey bs) s = some { s with key := k, keyCnt := BitVec.ofNat 6 (min bs.length 33) } ∧
      (∀ p, p < 32 → fileByte k p = bs.getD p (fileByte s.key p)) ∧ (bs.length = 32 → k = keyWords bs)) ∧
  (∀ (s : State) (bs : List Byte), s.errcode = 0 → s.phase = .idle → s.nonceCnt = 0 →
    ∃ k : Vector Word 3, issue (loadNonce bs) s =
        some { s with nonce := k, nonceCnt := BitVec.ofNat 4 (min bs.length 13) } ∧
      (∀ p, p < 12 → fileByte k p = bs.getD p (fileByte s.nonce p)) ∧ (bs.length = 12 → k = nonceWords bs))

/-- R66, R101 (`LOADBLK`, `READBLK`): the data bytes of a block land little-endian in `DIN`, and the bytes read back are those
of `DOUT` in the same order (the pad bytes are the model's choice, log 15). -/
def Obligations.BlockBytesPassLittleEndian : Prop :=
  (∀ (s : State) (p : List Byte), s.errcode = 0 → s.phase = .idle → 1 ≤ p.length → p.length ≤ 64 →
    ∃ d : Words16, issue (loadBlk p) s = some { s with din := d } ∧
      (∀ k, k < p.length → fileByte d k = p.getD k 0) ∧
      ∀ i : Fin 16, (p.length + 3) / 4 ≤ i.val → d[i] = s.din[i]) ∧
  (∀ (s : State) (n : Nat), 1 ≤ n → n ≤ 64 →
    ∃ ws : List Word, issue (readBlk n) s = some { s with reads := ws.reverse ++ s.reads } ∧
      readBlkBytes n ws = (List.range n).map (fileByte s.dout))

/-- R188: `SETCTR w` in every state: all 32 bits, every value legal, `CTR_OVF` cleared. -/
def Obligations.SetctrWritesTheCounter : Prop :=
  (∀ w : Word, decodeTw (mkTw true 3 w) = .setctr w) ∧
  (∀ (w : Word) (s : State), s.errcode ≠ 0 → exec (.setctr w) s = .next s) ∧
  (∀ (w : Word) (s : State), s.errcode = 0 → s.phase ≠ .idle → exec (.setctr w) s =
    .next { s with errcode := 5, phase := .idle, q := 0, x := zeros16, dout := zeros16, valid := false }) ∧
  (∀ (w : Word) (s : State), s.errcode = 0 → s.phase = .idle →
    exec (.setctr w) s = .next { s with ctr := w, ctrOvf := false })

/-- R189: `DIN i, w` in every state: word `i` is written, no other word, no flag, not `DOUT`. -/
def Obligations.DinWritesOneWord : Prop :=
  (∀ (i : Fin 16) (w : Word), decodeTw (mkTw true (BitVec.ofNat 7 (16 + i)) w) = .din i w) ∧
  (∀ (i : Fin 16) (w : Word) (s : State), s.errcode ≠ 0 → exec (.din i w) s = .next s) ∧
  (∀ (i : Fin 16) (w : Word) (s : State), s.errcode = 0 → s.phase ≠ .idle → exec (.din i w) s =
    .next { s with errcode := 5, phase := .idle, q := 0, x := zeros16, dout := zeros16, valid := false }) ∧
  (∀ (i : Fin 16) (w : Word) (s : State), s.errcode = 0 → s.phase = .idle →
    ∃ d : Words16, exec (.din i w) s = .next { s with din := d } ∧ ∀ j : Fin 16, d[j] = if j = i then w else s.din[j])

/-- R190, R63, R64: a write to a read-only or reserved register is `WRIGN` and changes nothing, in every state; a read of
a reserved or write-only register returns zero and changes nothing. -/
def Obligations.IgnoredWritesAndZeroReads : Prop :=
  (∀ (widx : BitVec 7) (v : Word) (s : State), exec (.wrign widx v) s = .next s) ∧
  (∀ (widx : BitVec 7) (v : Word),
    (widx = 1 ∨ widx = 2 ∨ (6 ≤ widx.toNat ∧ widx.toNat ≤ 15) ∨ 32 ≤ widx.toNat) →
      decodeTw (mkTw true widx v) = .wrign widx v) ∧
  (∀ (widx : BitVec 7) (v : Word) (s : State),
    (widx = 0 ∨ widx = 4 ∨ widx = 5 ∨ (6 ≤ widx.toNat ∧ widx.toNat ≤ 15) ∨ 48 ≤ widx.toNat) →
      exec (decodeTw (mkTw false widx v)) s = .next { s with reads := 0 :: s.reads })

/-! ### Commands -/

/-- R200: `NOP` does nothing, in every phase and lock state. -/
def Obligations.NopChangesNothing : Prop :=
  decodeTw 0x8000000000 = .nop ∧ ∀ s : State, exec .nop s = .next s

/-- R201: `GO n` in every state: ignored when locked, `BusyWrite` when busy (R204), else the first case that applies, with
all it writes. -/
def Obligations.GoChecksThenStartsTheBlock : Prop :=
  (∀ n : BitVec 7, n.toNat ≤ 64 → decodeTw (0x8000000001 + n.setWidth 40 * 256) = .go n) ∧
  (∀ (n : BitVec 7) (s : State), s.errcode ≠ 0 → exec (.go n) s = .next s) ∧
  (∀ (n : BitVec 7) (s : State), s.errcode = 0 → s.phase ≠ .idle → exec (.go n) s =
    .next { s with errcode := 5, phase := .idle, q := 0, x := zeros16, dout := zeros16, valid := false }) ∧
  ∀ (n : BitVec 7) (s : State), n.toNat ≤ 64 → s.errcode = 0 → s.phase = .idle →
    (s.keyCnt ≠ 32 → exec (.go n) s =
      .next { s with errcode := 1, phase := .idle, q := 0, x := zeros16, dout := zeros16, valid := false }) ∧
    (s.keyCnt = 32 → s.nonceCnt ≠ 12 → exec (.go n) s =
      .next { s with errcode := 2, phase := .idle, q := 0, x := zeros16, dout := zeros16, valid := false }) ∧
    (s.keyCnt = 32 → s.nonceCnt = 12 → n = 0 → exec (.go n) s =
      .next { s with blen := 0, dout := zeros16, valid := true }) ∧
    (s.keyCnt = 32 → s.nonceCnt = 12 → n ≠ 0 → s.ctrOvf = true → exec (.go n) s =
      .next { s with errcode := 3, phase := .idle, q := 0, x := zeros16, dout := zeros16, valid := false }) ∧
    (s.keyCnt = 32 → s.nonceCnt = 12 → n ≠ 0 → s.ctrOvf = false → exec (.go n) s =
      .next { s with blen := n, dout := zeros16, valid := false, q := 0, phase := .init })

/-- R203, R229: a command word that is not legal is `ILLCMD`; it raises `IllegalCommand` when the core is idle and
unlocked, `BusyWrite` when busy, nothing when locked. -/
def Obligations.IllegalCommandWordFaults : Prop :=
  (∀ v : Word, v ≠ 0 → v ≠ 2 →
    ¬ (v.toNat % 16 = 1 ∧ v.toNat / 16 % 16 = 0 ∧ v.toNat / 2 ^ 15 = 0 ∧ v.toNat / 256 % 128 ≤ 64) →
      decodeTw (mkTw true 0 v) = .illcmd v) ∧
  (∀ (v : Word) (s : State), s.errcode = 0 → s.phase = .idle → exec (.illcmd v) s =
    .next { s with errcode := 4, phase := .idle, q := 0, x := zeros16, dout := zeros16, valid := false }) ∧
  (∀ (v : Word) (s : State), s.errcode = 0 → s.phase ≠ .idle → exec (.illcmd v) s =
    .next { s with errcode := 5, phase := .idle, q := 0, x := zeros16, dout := zeros16, valid := false }) ∧
  (∀ (v : Word) (s : State), s.errcode ≠ 0 → exec (.illcmd v) s = .next s)

/-- R204: what a write of `v` to `CTRL` does, the first case that applies. -/
def Obligations.ControlWritesAreHandledInOrder : Prop :=
  ∀ (v : Word) (s : State),
    (v = 0x00000002 → exec (decodeTw (mkTw true 0 v)) s = .next s.clearAll) ∧
    (v = 0x00000000 → exec (decodeTw (mkTw true 0 v)) s = .next s) ∧
    (v ≠ 0 → v ≠ 2 → s.errcode ≠ 0 → exec (decodeTw (mkTw true 0 v)) s = .next s) ∧
    (v ≠ 0 → v ≠ 2 → s.errcode = 0 → s.phase ≠ .idle → exec (decodeTw (mkTw true 0 v)) s =
      .next { s with errcode := 5, phase := .idle, q := 0, x := zeros16, dout := zeros16, valid := false }) ∧
    (v ≠ 0 → v ≠ 2 → s.errcode = 0 → s.phase = .idle →
      ¬ (v.toNat % 16 = 1 ∧ v.toNat / 16 % 16 = 0 ∧ v.toNat / 2 ^ 15 = 0 ∧ v.toNat / 256 % 128 ≤ 64) →
        exec (decodeTw (mkTw true 0 v)) s =
          .next { s with errcode := 4, phase := .idle, q := 0, x := zeros16, dout := zeros16, valid := false }) ∧
    (s.errcode = 0 → s.phase = .idle →
      (v.toNat % 16 = 1 ∧ v.toNat / 16 % 16 = 0 ∧ v.toNat / 2 ^ 15 = 0 ∧ v.toNat / 256 % 128 ≤ 64) →
        exec (decodeTw (mkTw true 0 v)) s = exec (.go (BitVec.ofNat 7 (v.toNat / 256 % 128))) s)

/-! ### Faults -/

/-- R226: an instruction that records a fault does exactly the fault entry, with the code of R220: everything else of the
core, and the model's inputs, keep their values. -/
def Obligations.RecordingAFaultIsTheFaultEntry : Prop :=
  ∀ (i : Instr) (s t : State), s.errcode = 0 → exec i s = .next t → t.errcode ≠ 0 →
    1 ≤ t.errcode.toNat ∧ t.errcode.toNat ≤ 5 ∧
    t = { s with errcode := t.errcode, phase := .idle, q := 0, x := zeros16, dout := zeros16, valid := false }

/-- R225: at most one fault per write, and only when `ERRCODE = 0`; the order of the causes for a write to `CTRL`. A
command that is no fault leaves `ERRCODE = 0`. -/
def Obligations.FaultPriority : Prop :=
  (∀ (v : Word) (s : State), s.errcode = 0 → ∃ t, exec (decodeTw (mkTw true 0 v)) s = .next t ∧
    t.errcode =
      if v = 0 ∨ v = 2 then 0
      else if s.phase ≠ .idle then 5
      else if ¬ (v.toNat % 16 = 1 ∧ v.toNat / 16 % 16 = 0 ∧ v.toNat / 2 ^ 15 = 0 ∧ v.toNat / 256 % 128 ≤ 64) then 4
      else if s.keyCnt ≠ 32 then 1
      else if s.nonceCnt ≠ 12 then 2
      else if v.toNat / 256 % 128 ≠ 0 ∧ s.ctrOvf = true then 3
      else 0) ∧
  (∀ (i : Instr) (s t : State), s.errcode ≠ 0 → exec i s = .next t → t.errcode = s.errcode ∨ i = .clr)

/-- R224: while `PHASE != IDLE` and no fault is recorded, exactly the gated writes and the commands other than NOP and CLR
raise `BusyWrite`; reads, ignored writes, NOP, CLR and the Engine's steps record no fault. -/
def Obligations.BusyWriteIsRaisedByExactlyTheGatedWrites : Prop :=
  ∀ (i : Instr) (s t : State), s.errcode = 0 → s.phase ≠ .idle → exec i s = .next t →
    (t.errcode = 5 ↔ (∃ b, i = .keyb b) ∨ (∃ b, i = .nonceb b) ∨ (∃ w, i = .setctr w) ∨ (∃ k w, i = .din k w) ∨
      (∃ n, i = .go n) ∨ (∃ v, i = .illcmd v)) ∧
    (t.errcode = 5 → t.ctr = s.ctr ∧ t.key = s.key ∧ t.nonce = s.nonce ∧ t.din = s.din ∧ t.blen = s.blen ∧
      t.phase = .idle ∧ t.dout = zeros16 ∧ t.valid = false) ∧
    (t.errcode = 0 ∨ t.errcode = 5)

/-- R227: the lock. Every gated write and every command but CLR is ignored, every read works as usual, the Engine has no
step (in a state that meets the invariants `PHASE = IDLE`). -/
def Obligations.LockedCoreIgnoresWrites : Prop :=
  ∀ s : State, s.errcode ≠ 0 →
    (∀ i : Instr, (i.format = .wr ∨ i.format = .cmd) → i ≠ .clr → exec i s = .next s) ∧
    (∀ (widx : BitVec 7) (v : Word),
      exec (decodeTw (mkTw false widx v)) s = .next { s with reads := windowRead s widx :: s.reads }) ∧
    (CoreInv s → engineTurn s = .next s)

/-- R228: the only ways out of the lock are CLR and Reset, and both put every element to its reset value. -/
def Obligations.OnlyClrAndResetUnlock : Prop :=
  ∀ s t : State, s.errcode ≠ 0 → step s = .next t → t.errcode ≠ s.errcode →
    ((∃ rest, s.script = .reset :: rest) ∨ (∃ w rest, s.script = .access w :: rest ∧ decodeTw w = .clr)) ∧ t.atReset

/-! ### The algorithm -/

/-- R121: `rotl32` moves bit `i` to bit `(i + n) mod 32`, for the four amounts the core uses. -/
def Obligations.RotationMovesEveryBit : Prop :=
  ∀ (v : Word) (n i : Nat), (n = 16 ∨ n = 12 ∨ n = 8 ∨ n = 7) → i < 32 →
    (rotl32 v n).getLsbD ((i + n) % 32) = v.getLsbD i

/-- R122: `QR` is the twelve assignments of the rule, executed top to bottom on the array, for distinct indices; `QR4` is
the same function on four words; the other words are unchanged. -/
def Obligations.QuarterRoundIsTheTwelveAssignments : Prop :=
  ∀ (x : Words16) (a b c d : Fin 16), a ≠ b → a ≠ c → a ≠ d → b ≠ c → b ≠ d → c ≠ d →
    qr x ⟨a, b, c, d⟩ =
      (let x := x.set a (x[a] + x[b])
       let x := x.set d (x[d] ^^^ x[a])
       let x := x.set d (rotl32 x[d] 16)
       let x := x.set c (x[c] + x[d])
       let x := x.set b (x[b] ^^^ x[c])
       let x := x.set b (rotl32 x[b] 12)
       let x := x.set a (x[a] + x[b])
       let x := x.set d (x[d] ^^^ x[a])
       let x := x.set d (rotl32 x[d] 8)
       let x := x.set c (x[c] + x[d])
       let x := x.set b (x[b] ^^^ x[c])
       x.set b (rotl32 x[b] 7)) ∧
    ((qr x ⟨a, b, c, d⟩)[a], (qr x ⟨a, b, c, d⟩)[b], (qr x ⟨a, b, c, d⟩)[c], (qr x ⟨a, b, c, d⟩)[d]) =
      qr4 x[a] x[b] x[c] x[d] ∧
    ∀ j : Fin 16, j ≠ a → j ≠ b → j ≠ c → j ≠ d → (qr x ⟨a, b, c, d⟩)[j] = x[j]

/-- R123: the quadruple of quarter-round `q` by the rule's formula. -/
def Obligations.QuarterRoundIndicesFormula : Prop :=
  ∀ q : Nat, q ≤ 79 →
    let r := q % 8
    let j := r % 4
    (r < 4 → (qidx q).a.val = j ∧ (qidx q).b.val = 4 + j ∧ (qidx q).c.val = 8 + j ∧ (qidx q).d.val = 12 + j) ∧
    (4 ≤ r → (qidx q).a.val = j ∧ (qidx q).b.val = 4 + (j + 1) % 4 ∧ (qidx q).c.val = 8 + (j + 2) % 4 ∧
      (qidx q).d.val = 12 + (j + 3) % 4)

/-- R124: the column round, the diagonal round, the double-round, and `Rounds20` as the eighty quarter-rounds
`q = 0, 1, ..., 79` in increasing order. -/
def Obligations.Rounds20IsEightyQuarterRounds : Prop :=
  (∀ x : Words16, columnRound x = [0, 1, 2, 3].foldl (fun y r => qr y (qidx r)) x) ∧
  (∀ x : Words16, diagonalRound x = [4, 5, 6, 7].foldl (fun y r => qr y (qidx r)) x) ∧
  (∀ x : Words16, doubleRound x = diagonalRound (columnRound x)) ∧
  (∀ x : Words16, rounds20 x = doubleRound^[10] x) ∧
  ∀ x : Words16, rounds20 x = (List.range 80).foldl (fun y q => qr y (qidx q)) x

/-- R131: the quarter-rounds of one round work on disjoint words, so any two of them may change places. -/
def Obligations.QuarterRoundsOfARoundCommute : Prop :=
  ∀ (x : Words16) (p q : Nat), p / 4 = q / 4 → p ≠ q →
    (∀ i : Fin 16, i = (qidx p).a ∨ i = (qidx p).b ∨ i = (qidx p).c ∨ i = (qidx p).d →
      i ≠ (qidx q).a ∧ i ≠ (qidx q).b ∧ i ≠ (qidx q).c ∧ i ≠ (qidx q).d) ∧
    qr (qr x (qidx p)) (qidx q) = qr (qr x (qidx q)) (qidx p)

/-- R126, R65 (d): `Block` has 64 bytes; byte `4i + j` is bits `[8j+7 : 8j]` of the sum of word `i` after 20 rounds and
word `i` of the initial matrix, which has key, counter and nonce where R125 puts them, little-endian. -/
def Obligations.BlockBytes : Prop :=
  ∀ (key nonce : List Byte) (c : Word), key.length = 32 → nonce.length = 12 →
    (block key c nonce).length = 64 ∧
    (∀ (i : Fin 16) (j : Nat), j < 4 → (block key c nonce).getD (4 * i + j) 0 =
      wordByte ((rounds20 (initState (keyWords key) c (nonceWords nonce)))[i] +
        (initState (keyWords key) c (nonceWords nonce))[i]) j) ∧
    (∀ p, p < 32 → fileByte (initState (keyWords key) c (nonceWords nonce)) (16 + p) = key.getD p 0) ∧
    (∀ p, p < 12 → fileByte (initState (keyWords key) c (nonceWords nonce)) (52 + p) = nonce.getD p 0)

/-- R150: the bytes of `Mask(n, i)`, and its full and empty cases. -/
def Obligations.MaskBytes : Prop :=
  ∀ n i : Nat, n ≤ 64 → i ≤ 15 →
    (∀ j, j < 4 → wordByte (mask n i) j = if 4 * i + j < n then 0xFF else 0x00) ∧
    (4 * i + 4 ≤ n → mask n i = 0xFFFFFFFF) ∧ (n ≤ 4 * i → mask n i = 0) ∧
    (n = 4 * i + 1 → mask n i = 0x000000FF) ∧ (n = 4 * i + 2 → mask n i = 0x0000FFFF) ∧
    (n = 4 * i + 3 → mask n i = 0x00FFFFFF)

/-- R153: round trip, length, empty input, block independence, for `Process` in its domain. -/
def Obligations.ProcessProperties : Prop :=
  ∀ (key nonce : List Byte) (c : Word) (m : List Byte), key.length = 32 → nonce.length = 12 →
    inDomain c m.length = true →
    ∃ out, process key nonce c m = .ok out ∧ process key nonce c out = .ok m ∧ out.length = m.length ∧
      (m = [] → out = []) ∧
      ∀ b, chunk out b = xorBytes (chunk m b) (block key (c + BitVec.ofNat 32 b) nonce)

/-! ### The Engine -/

/-- R127, R125: `E.INIT` loads the matrix word by word and starts the rounds; nothing else changes. -/
def Obligations.EinitLoadsTheMatrix : Prop :=
  (∀ L : Lanes, decodeEw L 0x080 = .ok .einit) ∧
  ∀ s : State, s.phase = .init → ∃ x : Words16, exec .einit s = .next { s with x := x, q := 0, phase := .round } ∧
    x[0] = 0x61707865 ∧ x[1] = 0x3320646e ∧ x[2] = 0x79622d32 ∧ x[3] = 0x6b206574 ∧
    (∀ k : Nat, ∀ h : k < 8, x[4 + k] = s.key[k]) ∧ x[12] = s.ctr ∧ (∀ k : Nat, ∀ h : k < 3, x[13 + k] = s.nonce[k])

/-- R128: `E.QR q` applies the `QR_LANES` quarter-rounds from `Q` on, adds `QR_LANES` to `Q`, and ends the rounds at 80;
nothing else changes. -/
def Obligations.EqrAppliesTheLanes : Prop :=
  (∀ (L : Lanes) (q : BitVec 7), q.toNat < 80 → q.toNat % L.count = 0 →
    decodeEw L (0x100 + q.setWidth 9) = .ok (.eqr q)) ∧
  ∀ s : State, s.phase = .round → s.q.toNat < 80 → s.q.toNat % s.lanes.count = 0 →
    ∃ q' : BitVec 7, q'.toNat = s.q.toNat + s.lanes.count ∧ q'.toNat ≤ 80 ∧
      exec (.eqr s.q) s = .next { s with
        x := (List.range s.lanes.count).foldl (fun y t => qr y (qidx (s.q.toNat + t))) s.x
        q := q'
        phase := if q'.toNat = 80 then .final else .round }

/-- R155: `E.FINAL`, byte by byte. Output byte `p` is data byte `p` XOR keystream byte `p` below `BLEN` and zero above;
`CTR` is incremented with `CTR_OVF` its wrap; `X` is cleared, `VALID` set, the sequencer idle; nothing else changes. -/
def Obligations.EfinalWritesTheOutputBytes : Prop :=
  (∀ L : Lanes, decodeEw L 0x1D0 = .ok .efinal) ∧
  ∀ s : State, s.phase = .final → ∃ (d : Words16) (c : Word),
    exec .efinal s = .next { s with
      dout := d, x := zeros16, ctrOvf := decide (s.ctr = 0xFFFFFFFF), ctr := c, valid := true, q := 0, phase := .idle } ∧
    c.toNat = (s.ctr.toNat + 1) % 2 ^ 32 ∧
    ∀ (i : Fin 16) (j : Nat), j < 4 → wordByte d[i] j =
      if 4 * i.val + j < s.blen.toNat then
        wordByte s.din[i] j ^^^ wordByte (s.x[i] + (initState s.key s.ctr s.nonce)[i]) j
      else 0

/-- R155, R189 (corner case): bytes of `DIN` at positions `>= BLEN` never influence the outcome of `E.FINAL`, but for
`DIN` itself. -/
def Obligations.StaleInputBytesNeverMatter : Prop :=
  ∀ (s : State) (d : Words16), s.phase = .final → (∀ p, p < s.blen.toNat → fileByte d p = fileByte s.din p) →
    ∃ t, exec .efinal s = .next t ∧ exec .efinal { s with din := d } = .next { t with din := d }

/-- R132: the rounds do not depend on `QR_LANES`. From the state `E.INIT` leaves, `m / QR_LANES` turns of the Engine apply
the first `m` quarter-rounds, for every multiple `m` of 4; after `80 / QR_LANES` turns `X` is `Rounds20` of the matrix. -/
def Obligations.RoundsDoNotDependOnLanes : Prop :=
  ∀ (s : State) (rest : List Event), s.phase = .round → s.q = 0 →
    (∀ m, m ≤ 80 → m % 4 = 0 →
      runSteps (m / s.lanes.count) { s with script := List.replicate (m / s.lanes.count) .engine ++ rest } =
        .next { s with
          x := (List.range m).foldl (fun y q => qr y (qidx q)) s.x
          q := BitVec.ofNat 7 m
          phase := if m = 80 then .final else .round
          script := rest }) ∧
    runSteps (80 / s.lanes.count) { s with script := List.replicate (80 / s.lanes.count) .engine ++ rest } =
      .next { s with x := rounds20 s.x, q := 80, phase := .final, script := rest }

/-- R160: one block. After `GO n` and exactly `STEPS_PER_BLOCK` turns of the Engine, with any reads of the Host among
them, the core holds the block of `BlockWords` under the mask, for every value of `QR_LANES`; in bytes, data byte `p` XOR byte `p`
of `Block`. -/
def Obligations.OneBlockIsBlockWords : Prop :=
  ∀ (s : State) (n : BitVec 7) (w rest : List Event),
    s.phase = .idle → s.errcode = 0 → s.keyCnt = 32 → s.nonceCnt = 12 → s.ctrOvf = false →
    1 ≤ n.toNat → n.toNat ≤ 64 →
    (∀ e ∈ w, e = .engine ∨ ∃ widx, e = .access (readTw widx)) → engineTurns w = s.lanes.stepsPerBlock →
    ∃ (r : List Word) (d : Words16),
      runSteps (1 + w.length) { s with script := eventOf (.go n) :: w ++ rest } =
        .next { s with
          dout := d, ctr := inc s.ctr, ctrOvf := wrap s.ctr, valid := true, blen := n, phase := .idle, q := 0,
          x := zeros16, script := rest, reads := r ++ s.reads } ∧
      (∀ i : Fin 16, d[i] = (s.din[i] ^^^ (blockWords s.key s.ctr s.nonce)[i]) &&& mask n.toNat i) ∧
      ∀ key nonce : List Byte, key.length = 32 → nonce.length = 12 → keyWords key = s.key → nonceWords nonce = s.nonce →
        ∀ p, p < n.toNat → fileByte d p = fileByte s.din p ^^^ (block key s.ctr nonce).getD p 0

/-- R264, R255: from the acceptance of GO, `BUSY` is 1 until the Engine has had exactly `STEPS_PER_BLOCK` turns, whatever
reads the Host makes. -/
def Obligations.BusyLastsStepsPerBlock : Prop :=
  ∀ (s : State) (w rest : List Event),
    s.phase = .init → s.q = 0 →
    (∀ e ∈ w, e = .engine ∨ ∃ widx, e = .access (readTw widx)) → engineTurns w ≤ s.lanes.stepsPerBlock →
    ∃ t, runSteps w.length { s with script := w ++ rest } = .next t ∧
      (t.phase = .idle ↔ engineTurns w = s.lanes.stepsPerBlock)

/-- R161: the Host's `PROCESS` sequence, from any state of the core. It ends unlocked with `Process` of the data in the
domain of R152; with a wrong key or nonce length it stops on the fault, without any output, the key first. (The turns the
Engine gets in `WAIT` are the model's choice, log 15.) -/
def Obligations.ProcessSequenceComputesProcess : Prop :=
  ∀ (s : State) (key nonce : List Byte) (c0 : Word) (data : List Byte),
    (key.length = 32 → nonce.length = 12 → inDomain c0 data.length = true →
      ∃ t out, processSequence key nonce c0 data s = some (t, ⟨out, none⟩) ∧ t.errcode = 0 ∧
        process key nonce c0 data = .ok out) ∧
    (key.length ≠ 32 →
      ∃ t, processSequence key nonce c0 data s = some (t, ⟨[], some 1⟩) ∧ t.errcode = 1 ∧ t.ctr = c0) ∧
    (key.length = 32 → nonce.length ≠ 12 →
      ∃ t, processSequence key nonce c0 data s = some (t, ⟨[], some 2⟩) ∧ t.errcode = 2 ∧ t.ctr = c0)

/-- R162, R223: outside the counter domain of R152 the `PROCESS` sequence, from any state of the core, stops on
`CounterWrap` with the output so far in the Host's hands and no more: `Process` of the first `2^32 - c0` blocks, whose last
counter is `0xFFFFFFFF`. `CTR` has wrapped to zero and `CTR_OVF` is set. (The turns the Engine gets in `WAIT` are the model's
choice, DESIGN CHOICE, log 15.) -/
def Obligations.ProcessSequenceStopsOnCounterWrap : Prop :=
  ∀ (s : State) (key nonce : List Byte) (c0 : Word) (data : List Byte),
    key.length = 32 → nonce.length = 12 → inDomain c0 data.length = false →
      ∃ t out, processSequence key nonce c0 data s = some (t, ⟨out, some 3⟩) ∧
        process key nonce c0 (data.take (64 * (2 ^ 32 - c0.toNat))) = .ok out ∧
        out.length = 64 * (2 ^ 32 - c0.toNat) ∧ t.errcode = 3 ∧ t.ctr = 0 ∧ t.ctrOvf = true

/-- R202, R254: "a `PROCESS` sequence that starts with CLR cannot be influenced by any earlier use of the core": two cores
with the same `QR_LANES`, whatever they hold, deliver the same result and end in the same state of the core. (The turns the
Engine gets in `WAIT`, the pad bytes and the last CLR left out are the model's choice, DESIGN CHOICE, log 15; the script and
the record of reads, left aside here, are the model's fields, logs 2 and 4.) -/
def Obligations.ProcessSequenceForgetsTheCore : Prop :=
  ∀ (s s' : State) (key nonce : List Byte) (c0 : Word) (data : List Byte), s.lanes = s'.lanes →
    (processSequence key nonce c0 data s).map (fun r => ({ r.1 with script := [], reads := [] }, r.2)) =
      (processSequence key nonce c0 data s').map (fun r => ({ r.1 with script := [], reads := [] }, r.2))

/-! ### Invariants and whole-machine rules -/

/-- R20 (the columns "host write" and "written by the Engine"), R21 to R32, R36, R37: each of the fourteen elements of the
core has only its writers. What an instruction other than CLR changes tells which instruction it was. (The last clause is
about the record of reads, which is the model's, log 4.) -/
def Obligations.EachElementHasOnlyItsWriters : Prop :=
  ∀ (i : Instr) (s t : State), exec i s = .next t → i ≠ .clr →
    (t.key ≠ s.key ∨ t.keyCnt ≠ s.keyCnt → ∃ b, i = .keyb b) ∧
    (t.nonce ≠ s.nonce ∨ t.nonceCnt ≠ s.nonceCnt → ∃ b, i = .nonceb b) ∧
    (t.din ≠ s.din → ∃ k w, i = .din k w) ∧
    (t.blen ≠ s.blen → i = .go t.blen) ∧
    (t.ctr ≠ s.ctr → i = .efinal ∨ i = .setctr t.ctr) ∧
    (t.ctrOvf ≠ s.ctrOvf → i = .efinal ∨ (t.ctrOvf = false ∧ ∃ w, i = .setctr w)) ∧
    (t.errcode ≠ s.errcode → s.errcode = 0 ∧ (i.format = .wr ∨ i.format = .cmd)) ∧
    (t.dout ≠ s.dout → i = .efinal ∨ (t.dout = zeros16 ∧ ((∃ n, i = .go n) ∨ t.errcode ≠ s.errcode))) ∧
    (t.valid ≠ s.valid → (t.valid = true ∧ (i = .efinal ∨ i = .go 0)) ∨
      (t.valid = false ∧ ((∃ n, i = .go n) ∨ t.errcode ≠ s.errcode))) ∧
    (t.x ≠ s.x → i.format = .eng ∨ (t.x = zeros16 ∧ t.errcode ≠ s.errcode)) ∧
    (t.phase ≠ s.phase → i.format = .eng ∨ (t.phase = .init ∧ ∃ n, i = .go n) ∨
      (t.phase = .idle ∧ t.errcode ≠ s.errcode)) ∧
    (t.q ≠ s.q → i.format = .eng ∨ (t.q = 0 ∧ ((∃ n, i = .go n) ∨ t.errcode ≠ s.errcode))) ∧
    (t.reads ≠ s.reads → i.format = .rd)

/-- R45: the invariants hold at Reset, for every value of `QR_LANES` and every script. -/
def Obligations.ResetMeetsTheInvariants : Prop :=
  ∀ (L : Lanes) (es : List Event), CoreInv { State.reset with lanes := L, script := es }

/-- R45: every step keeps the invariants, from every state that meets them. -/
def Obligations.StepKeepsTheInvariants : Prop :=
  ∀ s t : State, CoreInv s → step s = .next t → CoreInv t

/-- R45 and R184 (`invalid_zero`): every state reached from Reset, under any script and any value of `QR_LANES`, meets the
invariants. That no run stops is read from R45 and R97 by inference: the control words that the model refuses (DEDUCED,
log 5) are those no run reaches. (The script and the lanes stand in the state by the model's choice, logs 1 and 2.) -/
def Obligations.ReachableStatesMeetTheInvariants : Prop :=
  ∀ (L : Lanes) (es : List Event) (n : Nat),
    ∃ t, runSteps n { State.reset with lanes := L, script := es } = .next t ∧ CoreInv t

/-- R36: the transitions of `PHASE`, and no other. -/
def Obligations.PhaseTransitions : Prop :=
  ∀ (i : Instr) (s t : State), exec i s = .next t →
    t.phase = s.phase ∨
    (s.phase = .idle ∧ t.phase = .init ∧ ∃ n, i = .go n ∧ 0 < n.toNat ∧ t.blen = n) ∨
    (s.phase = .init ∧ t.phase = .round ∧ i = .einit) ∨
    (s.phase = .round ∧ t.phase = .final ∧ i = .eqr s.q) ∨
    (s.phase = .final ∧ t.phase = .idle ∧ i = .efinal) ∨
    (t.phase = .idle ∧ ((s.errcode = 0 ∧ t.errcode ≠ 0) ∨ i = .clr))

/-- R260: while `PHASE != IDLE` no instruction but CLR changes `KEY`, `KEY_CNT`, `NONCE`, `NONCE_CNT`, `DIN` or `BLEN`, and
none but CLR and `E.FINAL` changes `CTR` or `CTR_OVF`; so the initial matrix stays what E.INIT loaded. -/
def Obligations.BusyCoreKeepsItsInputs : Prop :=
  ∀ (i : Instr) (s t : State), s.phase ≠ .idle → exec i s = .next t → i ≠ .clr →
    t.key = s.key ∧ t.keyCnt = s.keyCnt ∧ t.nonce = s.nonce ∧ t.nonceCnt = s.nonceCnt ∧ t.din = s.din ∧ t.blen = s.blen ∧
    (i ≠ .efinal → t.ctr = s.ctr ∧ t.ctrOvf = s.ctrOvf ∧
      initState t.key t.ctr t.nonce = initState s.key s.ctr s.nonce) ∧
    (i = .efinal ∨ t.errcode ≠ s.errcode → t.phase = .idle)

/-- R234, R25: `CTR` changes only at `E.FINAL`, by a Host write of it, and by CLR. -/
def Obligations.CounterChangesOnlyAtFinalAndHostWrites : Prop :=
  ∀ (i : Instr) (s t : State), exec i s = .next t → t.ctr ≠ s.ctr →
    (i = .efinal ∧ t.ctr = s.ctr + 1) ∨ (i = .setctr t.ctr) ∨ (i = .clr ∧ t.ctr = 0)

/-- R266: the sequencer reads none of key, nonce, counter or data: two states with the same `PHASE`, `Q` and `QR_LANES`
have the same `PHASE` and `Q` after the Engine's turn, and one has a turn exactly if the other has. -/
def Obligations.SequencerReadsNoData : Prop :=
  ∀ s t : State, s.phase = t.phase → s.q = t.q → s.lanes = t.lanes →
    (∀ s', engineTurn s = .next s' → ∃ t', engineTurn t = .next t' ∧ s'.phase = t'.phase ∧ s'.q = t'.q)

/-- No step changes the parameter `QR_LANES` (R5: "No other quantity is a parameter"; that it stands in the state is the
model's choice, log 1), and an instruction leaves the rest of the script alone (log 2). -/
def Obligations.StepsKeepTheParameter : Prop :=
  (∀ (i : Instr) (s t : State), exec i s = .next t → t.lanes = s.lanes ∧ t.script = s.script) ∧
  (∀ s t : State, step s = .next t → t.lanes = s.lanes ∧ t.script = s.script.tail)
end

