-- ==== Sys2Proof/Laws/Decode.lean ====
section
/-! SUPPORT. The small lemmas of the decoder: the fields of a transaction word, the banks of the window, the command
word of GO, the order in which the decoder tries its rows. -/

namespace Sys2Proof

/-- The bits of a transaction word (R90). -/
theorem mkTw_getLsbD (we : Bool) (widx : BitVec 7) (v : Word) (k : Nat) :
    (mkTw we widx v).getLsbD k =
      if k < 32 then v.getLsbD k else if k < 39 then widx.getLsbD (k - 32) else decide (k = 39) && we := by
  have h : (mkTw we widx v).getLsbD k =
      if k < 32 then v.getLsbD k else if k - 32 < 7 then widx.getLsbD (k - 32)
        else (BitVec.ofBool we).getLsbD (k - 32 - 7) := by
    show ((BitVec.ofBool we ++ widx ++ v : BitVec (1 + 7 + 32))).getLsbD k = _
    rw [BitVec.getLsbD_append, BitVec.getLsbD_append]
  rw [h]
  by_cases h1 : k < 32
  · simp [h1]
  · by_cases h2 : k < 39
    · have h3 : k - 32 < 7 := by omega
      simp [h1, h2, h3]
    · have h3 : ¬ k - 32 < 7 := by omega
      have h4 : k - 32 - 7 = 0 ↔ k = 39 := by omega
      simp only [h1, h2, h3, if_false]
      rcases Nat.eq_zero_or_pos (k - 32 - 7) with h0 | h0
      · rw [h0]; simp [h4.mp h0]
      · have h5 : k ≠ 39 := by omega
        rw [BitVec.getLsbD_of_ge _ _ (by omega)]; simp [h5]

@[simp] theorem twWe_mkTw (we : Bool) (widx : BitVec 7) (v : Word) : twWe (mkTw we widx v) = we := by
  rw [twWe, mkTw_getLsbD]; simp

@[simp] theorem twIndex_mkTw (we : Bool) (widx : BitVec 7) (v : Word) : twIndex (mkTw we widx v) = widx := by
  apply BitVec.eq_of_getLsbD_eq
  intro k hk
  have h1 : ¬ 32 + k < 32 := by omega
  have h2 : 32 + k < 39 := by omega
  rw [twIndex, BitVec.getLsbD_extractLsb', mkTw_getLsbD]
  simp only [hk, decide_true, Bool.true_and, h1, h2, if_true, if_false, Nat.add_sub_cancel_left]

@[simp] theorem twData_mkTw (we : Bool) (widx : BitVec 7) (v : Word) : twData (mkTw we widx v) = v := by
  apply BitVec.eq_of_getLsbD_eq
  intro k hk
  rw [twData, BitVec.getLsbD_extractLsb', mkTw_getLsbD]
  simp only [hk, decide_true, Bool.true_and, Nat.zero_add, if_true]

/-- A transaction word is its three fields. -/
@[simp] theorem mkTw_fields (t : Tw) : mkTw (twWe t) (twIndex t) (twData t) = t := by
  apply BitVec.eq_of_getLsbD_eq
  intro k hk
  rw [mkTw_getLsbD, twWe, twIndex, twData, BitVec.getLsbD_extractLsb', BitVec.getLsbD_extractLsb']
  by_cases h1 : k < 32
  · simp only [h1, decide_true, Bool.true_and, Nat.zero_add, if_true]
  · by_cases h2 : k < 39
    · have h3 : k - 32 < 7 := by omega
      have h4 : 32 + (k - 32) = k := by omega
      simp only [h1, h2, h3, h4, decide_true, Bool.true_and, if_true, if_false]
    · obtain rfl : k = 39 := by omega
      simp

/-- Decoding a write. -/
theorem decodeTw_write (widx : BitVec 7) (v : Word) :
    decodeTw (writeTw widx v) = if widx = 0 then decodeCommand v else decodeWrite widx v := by
  simp [decodeTw, writeTw]

/-- Decoding a read: the data bits are ignored. -/
theorem decodeTw_read (widx : BitVec 7) (v : Word) : decodeTw (mkTw false widx v) = decodeRead widx := by
  simp [decodeTw]

/-- The bank and the register of a bank's index (R92). -/
theorem bankOf_bankIndex (b : BitVec 3) (i : Fin 16) : bankOf (bankIndex b i) = b := by
  revert b i; decide

@[inherit_doc bankOf_bankIndex] theorem bankReg_bankIndex (b : BitVec 3) (i : Fin 16) : bankReg (bankIndex b i) = i := by
  revert b i; decide

/-- An index of bank 1 or 2 is the index of its register (R92). -/
theorem bankIndex_of_bank (widx : BitVec 7) : bankIndex (bankOf widx) (bankReg widx) = widx := by
  revert widx; decide

/-- The first row that hits decides (R95). -/
theorem decodeRead_of_not_readable {widx : BitVec 7} : readableIndex widx = false → decodeRead widx = .rdzero widx := by
  revert widx; decide

/-- The fields of the command word of GO (R93, R201). -/
theorem blenField_goCommand (n : BitVec 7) : blenField (goCommand n) = n := by
  revert n; decide

@[inherit_doc blenField_goCommand] theorem goWord_goCommand (n : BitVec 7) :
    goWord (goCommand n) = decide (n.toNat ≤ 64) := by
  revert n; decide

/-- A legal GO word is the command word of its length. -/
theorem goCommand_blenField {v : Word} (h : goWord v = true) : goCommand (blenField v) = v := by
  simp only [goWord, Bool.and_eq_true, beq_iff_eq] at h
  obtain ⟨⟨⟨h1, h2⟩, h3⟩, _⟩ := h
  apply BitVec.eq_of_getLsbD_eq
  intro k hk
  have b1 : ∀ j < 4, v.getLsbD j = decide (j = 0) := by
    intro j hj
    have := congrArg (·.getLsbD j) h1
    simp only [BitVec.getLsbD_extractLsb', hj, decide_true, Bool.true_and, Nat.zero_add] at this
    rw [this]
    have hc : j = 0 ∨ j = 1 ∨ j = 2 ∨ j = 3 := by omega
    rcases hc with rfl | rfl | rfl | rfl <;> decide
  have b2 : ∀ j < 4, v.getLsbD (4 + j) = false := by
    intro j hj
    have := congrArg (·.getLsbD j) h2
    simpa only [BitVec.getLsbD_extractLsb', hj, decide_true, Bool.true_and, BitVec.ofNat_eq_ofNat, BitVec.getLsbD_zero] using this
  have b3 : ∀ j < 17, v.getLsbD (15 + j) = false := by
    intro j hj
    have := congrArg (·.getLsbD j) h3
    simpa only [BitVec.getLsbD_extractLsb', hj, decide_true, Bool.true_and, BitVec.ofNat_eq_ofNat, BitVec.getLsbD_zero] using this
  have hone : (1 : Word).getLsbD k = decide (k = 0) := by
    rw [BitVec.ofNat_eq_ofNat, BitVec.getLsbD_one]; simp
  simp only [goCommand, blenField, BitVec.getLsbD_or, BitVec.getLsbD_shiftLeft, BitVec.getLsbD_setWidth,
    BitVec.getLsbD_extractLsb', hone, hk, decide_true, Bool.true_and]
  rcases Nat.lt_or_ge k 4 with h4 | h4
  · have : k < 8 := by omega
    simp only [this, decide_true, Bool.not_true, Bool.false_and, Bool.false_or, b1 k h4]
  · rcases Nat.lt_or_ge k 8 with h8 | h8
    · have hb := b2 (k - 4) (by omega)
      rw [show 4 + (k - 4) = k by omega] at hb
      have : k ≠ 0 := by omega
      simp [hb, h8, this]
    · have h0 : k ≠ 0 := by omega
      have h32 : k - 8 < 32 := by omega
      have hnot : ¬ k < 8 := by omega
      rcases Nat.lt_or_ge k 15 with h15 | h15
      · have h7 : k - 8 < 7 := by omega
        have hk8 : 8 + (k - 8) = k := by omega
        simp [h0, h7, hk8, hnot, h32]
      · have hb := b3 (k - 15) (by omega)
        rw [show 15 + (k - 15) = k by omega] at hb
        have h7 : ¬ k - 8 < 7 := by omega
        simp [hb, h0, h7]

/-- NOP and CLR are no GO words, so the order of the command rows matters to none of them. -/
theorem not_goWord_nop_clr : goWord 0 = false ∧ goWord 2 = false := by decide

end Sys2Proof
end

