-- ==== Sys2Proof/Laws/State.lean ====
section
/-! SUPPORT. One lemma per field per update of the state, each true by `rfl`, so that no proof unfolds a record update. -/

namespace Sys2Proof.Machine

variable (s : State)

/-! ### State.raiseFault -/
@[simp] theorem raiseFault_key (f : FaultCode) : (s.raiseFault f).key = s.key := rfl
@[simp] theorem raiseFault_keyCnt (f : FaultCode) : (s.raiseFault f).keyCnt = s.keyCnt := rfl
@[simp] theorem raiseFault_nonce (f : FaultCode) : (s.raiseFault f).nonce = s.nonce := rfl
@[simp] theorem raiseFault_nonceCnt (f : FaultCode) : (s.raiseFault f).nonceCnt = s.nonceCnt := rfl
@[simp] theorem raiseFault_ctr (f : FaultCode) : (s.raiseFault f).ctr = s.ctr := rfl
@[simp] theorem raiseFault_ctrOvf (f : FaultCode) : (s.raiseFault f).ctrOvf = s.ctrOvf := rfl
@[simp] theorem raiseFault_din (f : FaultCode) : (s.raiseFault f).din = s.din := rfl
@[simp] theorem raiseFault_dout (f : FaultCode) : (s.raiseFault f).dout = zeros16 := rfl
@[simp] theorem raiseFault_blen (f : FaultCode) : (s.raiseFault f).blen = s.blen := rfl
@[simp] theorem raiseFault_valid (f : FaultCode) : (s.raiseFault f).valid = false := rfl
@[simp] theorem raiseFault_errcode (f : FaultCode) : (s.raiseFault f).errcode = f.code := rfl
@[simp] theorem raiseFault_x (f : FaultCode) : (s.raiseFault f).x = zeros16 := rfl
@[simp] theorem raiseFault_phase (f : FaultCode) : (s.raiseFault f).phase = .idle := rfl
@[simp] theorem raiseFault_q (f : FaultCode) : (s.raiseFault f).q = 0 := rfl
@[simp] theorem raiseFault_lanes (f : FaultCode) : (s.raiseFault f).lanes = s.lanes := rfl
@[simp] theorem raiseFault_script (f : FaultCode) : (s.raiseFault f).script = s.script := rfl
@[simp] theorem raiseFault_reads (f : FaultCode) : (s.raiseFault f).reads = s.reads := rfl

/-! ### State.reply -/
@[simp] theorem reply_key (v : Word) : (s.reply v).key = s.key := rfl
@[simp] theorem reply_keyCnt (v : Word) : (s.reply v).keyCnt = s.keyCnt := rfl
@[simp] theorem reply_nonce (v : Word) : (s.reply v).nonce = s.nonce := rfl
@[simp] theorem reply_nonceCnt (v : Word) : (s.reply v).nonceCnt = s.nonceCnt := rfl
@[simp] theorem reply_ctr (v : Word) : (s.reply v).ctr = s.ctr := rfl
@[simp] theorem reply_ctrOvf (v : Word) : (s.reply v).ctrOvf = s.ctrOvf := rfl
@[simp] theorem reply_din (v : Word) : (s.reply v).din = s.din := rfl
@[simp] theorem reply_dout (v : Word) : (s.reply v).dout = s.dout := rfl
@[simp] theorem reply_blen (v : Word) : (s.reply v).blen = s.blen := rfl
@[simp] theorem reply_valid (v : Word) : (s.reply v).valid = s.valid := rfl
@[simp] theorem reply_errcode (v : Word) : (s.reply v).errcode = s.errcode := rfl
@[simp] theorem reply_x (v : Word) : (s.reply v).x = s.x := rfl
@[simp] theorem reply_phase (v : Word) : (s.reply v).phase = s.phase := rfl
@[simp] theorem reply_q (v : Word) : (s.reply v).q = s.q := rfl
@[simp] theorem reply_lanes (v : Word) : (s.reply v).lanes = s.lanes := rfl
@[simp] theorem reply_script (v : Word) : (s.reply v).script = s.script := rfl
@[simp] theorem reply_reads (v : Word) : (s.reply v).reads = v :: s.reads := rfl

/-! ### putCounter -/
@[simp] theorem putCounter_key (w : Word) : (putCounter w s).key = s.key := rfl
@[simp] theorem putCounter_keyCnt (w : Word) : (putCounter w s).keyCnt = s.keyCnt := rfl
@[simp] theorem putCounter_nonce (w : Word) : (putCounter w s).nonce = s.nonce := rfl
@[simp] theorem putCounter_nonceCnt (w : Word) : (putCounter w s).nonceCnt = s.nonceCnt := rfl
@[simp] theorem putCounter_ctr (w : Word) : (putCounter w s).ctr = w := rfl
@[simp] theorem putCounter_ctrOvf (w : Word) : (putCounter w s).ctrOvf = false := rfl
@[simp] theorem putCounter_din (w : Word) : (putCounter w s).din = s.din := rfl
@[simp] theorem putCounter_dout (w : Word) : (putCounter w s).dout = s.dout := rfl
@[simp] theorem putCounter_blen (w : Word) : (putCounter w s).blen = s.blen := rfl
@[simp] theorem putCounter_valid (w : Word) : (putCounter w s).valid = s.valid := rfl
@[simp] theorem putCounter_errcode (w : Word) : (putCounter w s).errcode = s.errcode := rfl
@[simp] theorem putCounter_x (w : Word) : (putCounter w s).x = s.x := rfl
@[simp] theorem putCounter_phase (w : Word) : (putCounter w s).phase = s.phase := rfl
@[simp] theorem putCounter_q (w : Word) : (putCounter w s).q = s.q := rfl
@[simp] theorem putCounter_lanes (w : Word) : (putCounter w s).lanes = s.lanes := rfl
@[simp] theorem putCounter_script (w : Word) : (putCounter w s).script = s.script := rfl
@[simp] theorem putCounter_reads (w : Word) : (putCounter w s).reads = s.reads := rfl

/-! ### putDataWord -/
@[simp] theorem putDataWord_key (i : Fin 16) (w : Word) : (putDataWord i w s).key = s.key := rfl
@[simp] theorem putDataWord_keyCnt (i : Fin 16) (w : Word) : (putDataWord i w s).keyCnt = s.keyCnt := rfl
@[simp] theorem putDataWord_nonce (i : Fin 16) (w : Word) : (putDataWord i w s).nonce = s.nonce := rfl
@[simp] theorem putDataWord_nonceCnt (i : Fin 16) (w : Word) : (putDataWord i w s).nonceCnt = s.nonceCnt := rfl
@[simp] theorem putDataWord_ctr (i : Fin 16) (w : Word) : (putDataWord i w s).ctr = s.ctr := rfl
@[simp] theorem putDataWord_ctrOvf (i : Fin 16) (w : Word) : (putDataWord i w s).ctrOvf = s.ctrOvf := rfl
@[simp] theorem putDataWord_din (i : Fin 16) (w : Word) : (putDataWord i w s).din = s.din.set i w := rfl
@[simp] theorem putDataWord_dout (i : Fin 16) (w : Word) : (putDataWord i w s).dout = s.dout := rfl
@[simp] theorem putDataWord_blen (i : Fin 16) (w : Word) : (putDataWord i w s).blen = s.blen := rfl
@[simp] theorem putDataWord_valid (i : Fin 16) (w : Word) : (putDataWord i w s).valid = s.valid := rfl
@[simp] theorem putDataWord_errcode (i : Fin 16) (w : Word) : (putDataWord i w s).errcode = s.errcode := rfl
@[simp] theorem putDataWord_x (i : Fin 16) (w : Word) : (putDataWord i w s).x = s.x := rfl
@[simp] theorem putDataWord_phase (i : Fin 16) (w : Word) : (putDataWord i w s).phase = s.phase := rfl
@[simp] theorem putDataWord_q (i : Fin 16) (w : Word) : (putDataWord i w s).q = s.q := rfl
@[simp] theorem putDataWord_lanes (i : Fin 16) (w : Word) : (putDataWord i w s).lanes = s.lanes := rfl
@[simp] theorem putDataWord_script (i : Fin 16) (w : Word) : (putDataWord i w s).script = s.script := rfl
@[simp] theorem putDataWord_reads (i : Fin 16) (w : Word) : (putDataWord i w s).reads = s.reads := rfl

/-! ### loadMatrix -/
@[simp] theorem loadMatrix_key : (loadMatrix s).key = s.key := rfl
@[simp] theorem loadMatrix_keyCnt : (loadMatrix s).keyCnt = s.keyCnt := rfl
@[simp] theorem loadMatrix_nonce : (loadMatrix s).nonce = s.nonce := rfl
@[simp] theorem loadMatrix_nonceCnt : (loadMatrix s).nonceCnt = s.nonceCnt := rfl
@[simp] theorem loadMatrix_ctr : (loadMatrix s).ctr = s.ctr := rfl
@[simp] theorem loadMatrix_ctrOvf : (loadMatrix s).ctrOvf = s.ctrOvf := rfl
@[simp] theorem loadMatrix_din : (loadMatrix s).din = s.din := rfl
@[simp] theorem loadMatrix_dout : (loadMatrix s).dout = s.dout := rfl
@[simp] theorem loadMatrix_blen : (loadMatrix s).blen = s.blen := rfl
@[simp] theorem loadMatrix_valid : (loadMatrix s).valid = s.valid := rfl
@[simp] theorem loadMatrix_errcode : (loadMatrix s).errcode = s.errcode := rfl
@[simp] theorem loadMatrix_x : (loadMatrix s).x = initState s.key s.ctr s.nonce := rfl
@[simp] theorem loadMatrix_phase : (loadMatrix s).phase = .round := rfl
@[simp] theorem loadMatrix_q : (loadMatrix s).q = 0 := rfl
@[simp] theorem loadMatrix_lanes : (loadMatrix s).lanes = s.lanes := rfl
@[simp] theorem loadMatrix_script : (loadMatrix s).script = s.script := rfl
@[simp] theorem loadMatrix_reads : (loadMatrix s).reads = s.reads := rfl

/-! ### roundStep -/
@[simp] theorem roundStep_key : (roundStep s).key = s.key := rfl
@[simp] theorem roundStep_keyCnt : (roundStep s).keyCnt = s.keyCnt := rfl
@[simp] theorem roundStep_nonce : (roundStep s).nonce = s.nonce := rfl
@[simp] theorem roundStep_nonceCnt : (roundStep s).nonceCnt = s.nonceCnt := rfl
@[simp] theorem roundStep_ctr : (roundStep s).ctr = s.ctr := rfl
@[simp] theorem roundStep_ctrOvf : (roundStep s).ctrOvf = s.ctrOvf := rfl
@[simp] theorem roundStep_din : (roundStep s).din = s.din := rfl
@[simp] theorem roundStep_dout : (roundStep s).dout = s.dout := rfl
@[simp] theorem roundStep_blen : (roundStep s).blen = s.blen := rfl
@[simp] theorem roundStep_valid : (roundStep s).valid = s.valid := rfl
@[simp] theorem roundStep_errcode : (roundStep s).errcode = s.errcode := rfl
@[simp] theorem roundStep_x : (roundStep s).x = qrRun s.q.toNat s.lanes.count s.x := rfl
@[simp] theorem roundStep_phase : (roundStep s).phase = if s.q + BitVec.ofNat 7 s.lanes.count = 80 then .final else .round := rfl
@[simp] theorem roundStep_q : (roundStep s).q = s.q + BitVec.ofNat 7 s.lanes.count := rfl
@[simp] theorem roundStep_lanes : (roundStep s).lanes = s.lanes := rfl
@[simp] theorem roundStep_script : (roundStep s).script = s.script := rfl
@[simp] theorem roundStep_reads : (roundStep s).reads = s.reads := rfl

/-! ### finishBlock -/
@[simp] theorem finishBlock_key : (finishBlock s).key = s.key := rfl
@[simp] theorem finishBlock_keyCnt : (finishBlock s).keyCnt = s.keyCnt := rfl
@[simp] theorem finishBlock_nonce : (finishBlock s).nonce = s.nonce := rfl
@[simp] theorem finishBlock_nonceCnt : (finishBlock s).nonceCnt = s.nonceCnt := rfl
@[simp] theorem finishBlock_ctr : (finishBlock s).ctr = inc s.ctr := rfl
@[simp] theorem finishBlock_ctrOvf : (finishBlock s).ctrOvf = wrap s.ctr := rfl
@[simp] theorem finishBlock_din : (finishBlock s).din = s.din := rfl
@[simp] theorem finishBlock_dout : (finishBlock s).dout = outputWords s.din (feedForward s.x (initState s.key s.ctr s.nonce)) s.blen.toNat := rfl
@[simp] theorem finishBlock_blen : (finishBlock s).blen = s.blen := rfl
@[simp] theorem finishBlock_valid : (finishBlock s).valid = true := rfl
@[simp] theorem finishBlock_errcode : (finishBlock s).errcode = s.errcode := rfl
@[simp] theorem finishBlock_x : (finishBlock s).x = zeros16 := rfl
@[simp] theorem finishBlock_phase : (finishBlock s).phase = .idle := rfl
@[simp] theorem finishBlock_q : (finishBlock s).q = 0 := rfl
@[simp] theorem finishBlock_lanes : (finishBlock s).lanes = s.lanes := rfl
@[simp] theorem finishBlock_script : (finishBlock s).script = s.script := rfl
@[simp] theorem finishBlock_reads : (finishBlock s).reads = s.reads := rfl

/-! ### State.withAccess -/
@[simp] theorem withAccess_key (t : Tw) : (s.withAccess t).key = s.key := rfl
@[simp] theorem withAccess_keyCnt (t : Tw) : (s.withAccess t).keyCnt = s.keyCnt := rfl
@[simp] theorem withAccess_nonce (t : Tw) : (s.withAccess t).nonce = s.nonce := rfl
@[simp] theorem withAccess_nonceCnt (t : Tw) : (s.withAccess t).nonceCnt = s.nonceCnt := rfl
@[simp] theorem withAccess_ctr (t : Tw) : (s.withAccess t).ctr = s.ctr := rfl
@[simp] theorem withAccess_ctrOvf (t : Tw) : (s.withAccess t).ctrOvf = s.ctrOvf := rfl
@[simp] theorem withAccess_din (t : Tw) : (s.withAccess t).din = s.din := rfl
@[simp] theorem withAccess_dout (t : Tw) : (s.withAccess t).dout = s.dout := rfl
@[simp] theorem withAccess_blen (t : Tw) : (s.withAccess t).blen = s.blen := rfl
@[simp] theorem withAccess_valid (t : Tw) : (s.withAccess t).valid = s.valid := rfl
@[simp] theorem withAccess_errcode (t : Tw) : (s.withAccess t).errcode = s.errcode := rfl
@[simp] theorem withAccess_x (t : Tw) : (s.withAccess t).x = s.x := rfl
@[simp] theorem withAccess_phase (t : Tw) : (s.withAccess t).phase = s.phase := rfl
@[simp] theorem withAccess_q (t : Tw) : (s.withAccess t).q = s.q := rfl
@[simp] theorem withAccess_lanes (t : Tw) : (s.withAccess t).lanes = s.lanes := rfl
@[simp] theorem withAccess_script (t : Tw) : (s.withAccess t).script = .access t :: s.script := rfl
@[simp] theorem withAccess_reads (t : Tw) : (s.withAccess t).reads = s.reads := rfl

/-! ### State.clearAll -/
@[simp] theorem clearAll_key : s.clearAll.key = Vector.replicate 8 0 := rfl
@[simp] theorem clearAll_keyCnt : s.clearAll.keyCnt = 0 := rfl
@[simp] theorem clearAll_nonce : s.clearAll.nonce = Vector.replicate 3 0 := rfl
@[simp] theorem clearAll_nonceCnt : s.clearAll.nonceCnt = 0 := rfl
@[simp] theorem clearAll_ctr : s.clearAll.ctr = 0 := rfl
@[simp] theorem clearAll_ctrOvf : s.clearAll.ctrOvf = false := rfl
@[simp] theorem clearAll_din : s.clearAll.din = zeros16 := rfl
@[simp] theorem clearAll_dout : s.clearAll.dout = zeros16 := rfl
@[simp] theorem clearAll_blen : s.clearAll.blen = 0 := rfl
@[simp] theorem clearAll_valid : s.clearAll.valid = false := rfl
@[simp] theorem clearAll_errcode : s.clearAll.errcode = 0 := rfl
@[simp] theorem clearAll_x : s.clearAll.x = zeros16 := rfl
@[simp] theorem clearAll_phase : s.clearAll.phase = .idle := rfl
@[simp] theorem clearAll_q : s.clearAll.q = 0 := rfl
@[simp] theorem clearAll_lanes : s.clearAll.lanes = s.lanes := rfl
@[simp] theorem clearAll_script : s.clearAll.script = s.script := rfl
@[simp] theorem clearAll_reads : s.clearAll.reads = s.reads := rfl

/-! ### State.reset -/
@[simp] theorem reset_key : State.reset.key = Vector.replicate 8 0 := rfl
@[simp] theorem reset_keyCnt : State.reset.keyCnt = 0 := rfl
@[simp] theorem reset_nonce : State.reset.nonce = Vector.replicate 3 0 := rfl
@[simp] theorem reset_nonceCnt : State.reset.nonceCnt = 0 := rfl
@[simp] theorem reset_ctr : State.reset.ctr = 0 := rfl
@[simp] theorem reset_ctrOvf : State.reset.ctrOvf = false := rfl
@[simp] theorem reset_din : State.reset.din = zeros16 := rfl
@[simp] theorem reset_dout : State.reset.dout = zeros16 := rfl
@[simp] theorem reset_blen : State.reset.blen = 0 := rfl
@[simp] theorem reset_valid : State.reset.valid = false := rfl
@[simp] theorem reset_errcode : State.reset.errcode = 0 := rfl
@[simp] theorem reset_x : State.reset.x = zeros16 := rfl
@[simp] theorem reset_phase : State.reset.phase = .idle := rfl
@[simp] theorem reset_q : State.reset.q = 0 := rfl
@[simp] theorem reset_lanes : State.reset.lanes = Config.defaultLanes := rfl
@[simp] theorem reset_script : State.reset.script = [] := rfl
@[simp] theorem reset_reads : State.reset.reads = [] := rfl

end Sys2Proof.Machine
end

