-- ==== Sys2Proof/Laws/Ops.lean ====
section
/-! SUPPORT. What each shared operation and each step can do, said once: the gate, the meanings, the Engine's turn, one
step of the machine. Later proofs cite these and unfold no meaning. -/

namespace Sys2Proof.Machine

/-! ### The gate (R191) -/

theorem gated_of_locked {f : State → State} {s : State} (h : s.errcode ≠ 0) : gated f s = s := by
  rw [gated, if_pos h]

theorem gated_of_busy {f : State → State} {s : State} (h : s.errcode = 0) (hp : s.phase ≠ .idle) :
    gated f s = s.raiseFault .busyWrite := by
  rw [gated, if_neg (not_not_intro h), if_pos hp]

theorem gated_of_ready {f : State → State} {s : State} (h : s.errcode = 0) (hp : s.phase = .idle) : gated f s = f s := by
  rw [gated, if_neg (not_not_intro h), if_neg (not_not_intro hp)]

/-- The three outcomes of a gated write. -/
theorem gated_cases (f : State → State) (s : State) :
    (s.errcode ≠ 0 ∧ gated f s = s) ∨
    (s.errcode = 0 ∧ s.phase ≠ .idle ∧ gated f s = s.raiseFault .busyWrite) ∨
    (s.errcode = 0 ∧ s.phase = .idle ∧ gated f s = f s) := by
  by_cases h : s.errcode = 0
  · by_cases hp : s.phase = .idle
    · exact .inr (.inr ⟨h, hp, gated_of_ready h hp⟩)
    · exact .inr (.inl ⟨h, hp, gated_of_busy h hp⟩)
  · exact .inl ⟨h, gated_of_locked h⟩

/-! ### The outcomes of GO (R201) -/

/-- What a performed GO can do: raise one of three faults, complete at once for `n = 0`, or start a block. -/
theorem startBlock_cases (n : BitVec 7) (s : State) :
    (∃ f, startBlock n s = s.raiseFault f) ∨
    (s.keyCnt = 32 ∧ s.nonceCnt = 12 ∧ n = 0 ∧
      startBlock n s = { s with blen := 0, dout := zeros16, valid := true }) ∨
    (s.keyCnt = 32 ∧ s.nonceCnt = 12 ∧ n ≠ 0 ∧ s.ctrOvf = false ∧
      startBlock n s = { s with blen := n, dout := zeros16, valid := false, q := 0, phase := .init }) := by
  by_cases hk : s.keyCnt = 32
  · by_cases hn : s.nonceCnt = 12
    · by_cases h0 : n = 0
      · exact .inr (.inl ⟨hk, hn, h0, by rw [startBlock, if_neg (not_not_intro hk), if_neg (not_not_intro hn), if_pos h0]⟩)
      · rcases ho : s.ctrOvf with _ | _
        · exact .inr (.inr ⟨hk, hn, h0, rfl, by rw [startBlock, if_neg (not_not_intro hk), if_neg (not_not_intro hn), if_neg h0, ho]; rfl⟩)
        · exact .inl ⟨.counterWrap, by rw [startBlock, if_neg (not_not_intro hk), if_neg (not_not_intro hn), if_neg h0, ho]; rfl⟩
    · exact .inl ⟨.invalidNonceLength, by rw [startBlock, if_neg (not_not_intro hk), if_pos hn]⟩
  · exact .inl ⟨.invalidKeyLength, by rw [startBlock, if_pos hk]⟩

/-! ### The Engine's steps, where they are enabled (R127, R128, R155) -/

theorem execEinit_eq {s : State} (h : s.phase = .init) : exec .einit s = .next (loadMatrix s) := by
  simp [exec, execEinit, h]

theorem execEqr_eq {s : State} {q : BitVec 7} (h : s.phase = .round) (hq : s.q = q) (h80 : q.toNat < 80)
    (ha : s.lanes.admits q = true) : exec (.eqr q) s = .next (roundStep s) := by
  simp [exec, execEqr, h, hq, h80, ha]

theorem execEfinal_eq {s : State} (h : s.phase = .final) : exec .efinal s = .next (finishBlock s) := by
  simp [exec, execEfinal, h]

/-! ### Everything an instruction can do -/

/-- The next state of an instruction, case by case. -/
theorem exec_cases {i : Instr} {s t : State} (h : exec i s = .next t) :
    t = s ∨
    (i.format = .rd ∧ ∃ v, t = s.reply v) ∨
    (i = .clr ∧ t = s.clearAll) ∨
    (i.format ≠ .eng ∧ s.errcode = 0 ∧ ∃ f, t = s.raiseFault f) ∨
    (s.errcode = 0 ∧ s.phase = .idle ∧
      ((∃ b, i = .keyb b ∧ t = putKeyByte b s) ∨
       (∃ b, i = .nonceb b ∧ t = putNonceByte b s) ∨
       (∃ w, i = .setctr w ∧ t = putCounter w s) ∨
       (∃ k w, i = .din k w ∧ t = putDataWord k w s) ∨
       (i = .go 0 ∧ s.keyCnt = 32 ∧ s.nonceCnt = 12 ∧ t = { s with blen := 0, dout := zeros16, valid := true }) ∨
       (∃ n, i = .go n ∧ n ≠ 0 ∧ n.toNat ≤ 64 ∧ s.keyCnt = 32 ∧ s.nonceCnt = 12 ∧ s.ctrOvf = false ∧
         t = { s with blen := n, dout := zeros16, valid := false, q := 0, phase := .init }))) ∨
    (i = .einit ∧ s.phase = .init ∧ t = loadMatrix s) ∨
    (i = .eqr s.q ∧ s.phase = .round ∧ s.q.toNat < 80 ∧ s.lanes.admits s.q = true ∧ t = roundStep s) ∨
    (i = .efinal ∧ s.phase = .final ∧ t = finishBlock s) := by
  have key : ∀ {f : State → State} {P : Prop}, Host.Outcome.next (gated f s) = (.next t : Result) →
      (t = s → P) → (s.errcode = 0 → ∀ c, t = s.raiseFault c → P) → (s.errcode = 0 → s.phase = .idle → t = f s → P) → P := by
    intro f P hg h1 h2 h3
    have ht : t = gated f s := by injection hg with hg; exact hg.symm
    rcases gated_cases f s with ⟨_, e⟩ | ⟨a, _, e⟩ | ⟨a, b, e⟩
    · exact h1 (ht.trans e)
    · exact h2 a _ (ht.trans e)
    · exact h3 a b (ht.trans e)
  have same : ∀ {u : State}, Host.Outcome.next u = (.next t : Result) → t = u := by
    intro u hu; injection hu with hu; exact hu.symm
  cases i with
  | rdstat => exact .inr (.inl ⟨rfl, _, same h⟩)
  | rdlens => exact .inr (.inl ⟨rfl, _, same h⟩)
  | rdctr => exact .inr (.inl ⟨rfl, _, same h⟩)
  | rddin k => exact .inr (.inl ⟨rfl, _, same h⟩)
  | rddout k => exact .inr (.inl ⟨rfl, _, same h⟩)
  | rdzero a => exact .inr (.inl ⟨rfl, _, same h⟩)
  | nop => exact .inl (same h)
  | wrign a v => exact .inl (same h)
  | clr => exact .inr (.inr (.inl ⟨rfl, same h⟩))
  | keyb b =>
    exact key h .inl (fun a c e => .inr (.inr (.inr (.inl ⟨by simp [Instr.format], a, c, e⟩))))
      (fun a p e => .inr (.inr (.inr (.inr (.inl ⟨a, p, .inl ⟨b, rfl, e⟩⟩)))))
  | nonceb b =>
    exact key h .inl (fun a c e => .inr (.inr (.inr (.inl ⟨by simp [Instr.format], a, c, e⟩))))
      (fun a p e => .inr (.inr (.inr (.inr (.inl ⟨a, p, .inr (.inl ⟨b, rfl, e⟩)⟩)))))
  | setctr w =>
    exact key h .inl (fun a c e => .inr (.inr (.inr (.inl ⟨by simp [Instr.format], a, c, e⟩))))
      (fun a p e => .inr (.inr (.inr (.inr (.inl ⟨a, p, .inr (.inr (.inl ⟨w, rfl, e⟩))⟩)))))
  | din k w =>
    exact key h .inl (fun a c e => .inr (.inr (.inr (.inl ⟨by simp [Instr.format], a, c, e⟩))))
      (fun a p e => .inr (.inr (.inr (.inr (.inl ⟨a, p, .inr (.inr (.inr (.inl ⟨k, w, rfl, e⟩)))⟩)))))
  | illcmd v =>
    exact key h .inl (fun a c e => .inr (.inr (.inr (.inl ⟨by simp [Instr.format], a, c, e⟩))))
      (fun a _ e => .inr (.inr (.inr (.inl ⟨by simp [Instr.format], a, _, e⟩))))
  | go n =>
    refine key h .inl (fun a c e => .inr (.inr (.inr (.inl ⟨by simp [Instr.format], a, c, e⟩)))) (fun a p e => ?_)
    by_cases hn : n.toNat ≤ 64
    · rw [performGo, if_pos hn] at e
      rcases startBlock_cases n s with ⟨f, e'⟩ | ⟨k, m, z, e'⟩ | ⟨k, m, z, o, e'⟩
      · exact .inr (.inr (.inr (.inl ⟨by simp [Instr.format], a, f, e.trans e'⟩)))
      · subst z
        exact .inr (.inr (.inr (.inr (.inl ⟨a, p, .inr (.inr (.inr (.inr (.inl ⟨rfl, k, m, e.trans e'⟩))))⟩))))
      · exact .inr (.inr (.inr (.inr (.inl ⟨a, p, .inr (.inr (.inr (.inr (.inr ⟨n, rfl, z, hn, k, m, o, e.trans e'⟩))))⟩))))
    · rw [performGo, if_neg hn] at e
      exact .inr (.inr (.inr (.inl ⟨by simp [Instr.format], a, _, e⟩)))
  | einit =>
    by_cases hp : s.phase = .init
    · rw [execEinit_eq hp] at h
      exact .inr (.inr (.inr (.inr (.inr (.inl ⟨rfl, hp, same h⟩)))))
    · simp [exec, execEinit, hp] at h
  | eqr q =>
    by_cases hp : s.phase = .round ∧ s.q = q ∧ q.toNat < 80 ∧ s.lanes.admits q = true
    · obtain ⟨p, rfl, h80, ha⟩ := hp
      rw [execEqr_eq p rfl h80 ha] at h
      exact .inr (.inr (.inr (.inr (.inr (.inr (.inl ⟨rfl, p, h80, ha, same h⟩))))))
    · simp [exec, execEqr, hp] at h
  | efinal =>
    by_cases hp : s.phase = .final
    · rw [execEfinal_eq hp] at h
      exact .inr (.inr (.inr (.inr (.inr (.inr (.inr ⟨rfl, hp, same h⟩))))))
    · simp [exec, execEfinal, hp] at h

/-- Every Host access and command has a next state, in every state. -/
theorem exec_host_next (i : Instr) (s : State) (h : i.format ≠ .eng) : ∃ t, exec i s = .next t := by
  cases i with
  | einit => exact absurd rfl h
  | eqr q => exact absurd rfl h
  | efinal => exact absurd rfl h
  | rdstat | rdlens | rdctr | rddin _ | rddout _ | rdzero _ | nop | clr | keyb _ | nonceb _ | setctr _ | din _ _ | go _
  | illcmd _ | wrign _ _ => exact ⟨_, rfl⟩

/-- A transaction word never decodes to an Engine step. -/
theorem decodeTw_format (t : Tw) : (decodeTw t).format ≠ .eng := by
  unfold decodeTw decodeRead decodeWrite decodeCommand
  repeat' split
  all_goals simp [Instr.format]

/-! ### The Engine's turn (R97, R129) -/

/-- The fields of the engine control word are `PHASE` and `Q`. -/
theorem engineWord_phase (s : State) : (engineWord s).extractLsb' 7 2 = s.phase.bits := by
  have : ∀ (p : BitVec 2) (q : BitVec 7), (p ++ q : BitVec 9).extractLsb' 7 2 = p := by decide
  exact this _ _

@[inherit_doc engineWord_phase] theorem engineWord_q (s : State) : (engineWord s).extractLsb' 0 7 = s.q := by
  have : ∀ (p : BitVec 2) (q : BitVec 7), (p ++ q : BitVec 9).extractLsb' 0 7 = q := by decide
  exact this _ _

theorem engineTurn_idle {s : State} (h : s.phase = .idle) : engineTurn s = .next s := by
  simp [engineTurn, h]

theorem engineTurn_init {s : State} (h : s.phase = .init) (hq : s.q = 0) : engineTurn s = .next (loadMatrix s) := by
  have hw : decodeEw s.lanes (engineWord s) = .ok .einit := by
    have : engineWord s = 0x080 := by simp [engineWord, h, hq, Phase.bits]
    rw [this]; rfl
  have hp : s.phase ≠ .idle := by simp [h]
  rw [engineTurn, if_neg hp, hw]
  exact execEinit_eq h

theorem engineTurn_round {s : State} (h : s.phase = .round) (h80 : s.q.toNat < 80) (ha : s.lanes.admits s.q = true) :
    engineTurn s = .next (roundStep s) := by
  have hw : decodeEw s.lanes (engineWord s) = .ok (.eqr s.q) := by
    have h2 : (engineWord s).extractLsb' 7 2 = 2 := by rw [engineWord_phase, h]; rfl
    have hne : ∀ e : Ew, e.extractLsb' 7 2 = 2 → e ≠ 0 ∧ e ≠ 0x080 := by decide
    obtain ⟨h0, h1⟩ := hne _ h2
    simp only [decodeEw, h0, h1, if_false, h2, engineWord_q, h80, ha, and_self, if_true]
  have hp : s.phase ≠ .idle := by simp [h]
  rw [engineTurn, if_neg hp, hw]
  exact execEqr_eq h rfl h80 ha

theorem engineTurn_final {s : State} (h : s.phase = .final) (hq : s.q = 80) : engineTurn s = .next (finishBlock s) := by
  have hw : decodeEw s.lanes (engineWord s) = .ok .efinal := by
    have : engineWord s = 0x1D0 := by simp [engineWord, h, hq, Phase.bits]
    rw [this]; rfl
  have hp : s.phase ≠ .idle := by simp [h]
  rw [engineTurn, if_neg hp, hw]
  exact execEfinal_eq h

/-! ### One step -/

theorem step_access {s : State} {t : Tw} {rest : List Event} (h : s.script = .access t :: rest) :
    step s = exec (decodeTw t) { s with script := rest } := by
  simp [step, nextStep, h, runEvent]

theorem step_engine {s : State} {rest : List Event} (h : s.script = .engine :: rest) :
    step s = engineTurn { s with script := rest } := by
  simp [step, nextStep, h, runEvent]

theorem step_reset {s : State} {rest : List Event} (h : s.script = .reset :: rest) :
    step s = .next { s with script := rest }.clearAll := by
  simp [step, nextStep, h, runEvent, resetEvent]

theorem step_empty {s : State} (h : s.script = []) : step s = engineTurn s := by
  simp [step, nextStep, h]

@[simp] theorem runSteps_zero (s : State) : runSteps 0 s = .next s := rfl

/-- A run continues from the state a first step leaves. -/
theorem runSteps_of_step {n : Nat} {s t : State} (h : step s = .next t) : runSteps (n + 1) s = runSteps n t := by
  have h' : Sys2Proof.core.step s = .next t := h
  simp only [runSteps, Host.Core.run, h']
  rfl

/-- A run of one step that does not go on ends there. -/
theorem runSteps_next {n : Nat} {s u : State} (h : runSteps (n + 1) s = .next u) : ∃ t, step s = .next t ∧ runSteps n t = .next u := by
  cases hs : step s with
  | next t => exact ⟨t, rfl, by rw [← runSteps_of_step hs]; exact h⟩
  | fault r =>
    have h' : Sys2Proof.core.step s = .fault r := hs
    simp [runSteps, Host.Core.run, h'] at h
  | refused r =>
    have h' : Sys2Proof.core.step s = .refused r := hs
    simp [runSteps, Host.Core.run, h'] at h

end Sys2Proof.Machine
end

