-- ==== Sys2Proof/Laws/HostScript.lean ====
section
/-! SUPPORT. What the Host's script operations do: one event performed, a list of them, the check for a fault. -/

namespace Sys2Proof.Machine

/-- An access whose instruction answers a next state is performed, whatever else the script holds. -/
theorem perform_access_of_next {t : Tw} {s u : State} (h : exec (decodeTw t) s = .next u) : perform (.access t) s = some u := by
  rw [perform, step_access rfl, h]

/-- A turn of the Engine that answers a next state is performed. -/
theorem perform_engine_of_next {s u : State} (h : engineTurn s = .next u) : perform .engine s = some u := by
  rw [perform, step_engine rfl, h]

/-- Reading `STATUS` records its value and changes nothing. -/
@[simp] theorem perform_rdstat (s : State) : perform (eventOf .rdstat) s = some (s.reply (statusWord s)) :=
  perform_access_of_next rfl

@[simp] theorem lastRead_reply (v : Word) (s : State) : lastRead (s.reply v) = v := rfl

/-- Events performed one list after the other. -/
theorem performAll_append (es fs : List Event) (s : State) :
    performAll (es ++ fs) s = (performAll es s).bind (performAll fs) := by
  induction es generalizing s with
  | nil => rfl
  | cons e es ih => simp [performAll, Option.bind_assoc, Option.bind_congr fun t _ => ih t]

/-- Instructions issued one list after the other. -/
theorem issue_append (is js : List Instr) (s : State) : issue (is ++ js) s = (issue is s).bind (issue js) := by
  unfold issue
  rw [List.map_append]
  exact performAll_append _ _ s

/-- Bit 2 of `STATUS` is `ERR` (R40). -/
@[simp] theorem statusWord_err (s : State) : (statusWord s)[2] = s.err := by simp [statusWord, bitAt]

/-- Bit 0 of `STATUS` is `BUSY` (R40). -/
@[simp] theorem statusWord_busy (s : State) : (statusWord s)[0] = s.busy := by simp [statusWord, bitAt]

/-- Bits 11:8 of `STATUS` are `ERRCODE` (R40). -/
@[simp] theorem statusWord_errcode (s : State) : (statusWord s).extractLsb' 8 4 = s.errcode := by
  ext k hk
  have hc : k = 0 ∨ k = 1 ∨ k = 2 ∨ k = 3 := by omega
  rcases hc with rfl | rfl | rfl | rfl <;> simp [statusWord, bitAt]

/-- The check for a fault: with a code recorded the sequence stops with the output so far and the code, else it goes on
(R161, R162). -/
theorem checkFault_eq (out : List Byte) (s : State) (go : State → Option (State × Delivered)) :
    checkFault out s go =
      if s.errcode = 0 then go (s.reply (statusWord s)) else some (s.reply (statusWord s), ⟨out, some s.errcode⟩) := by
  by_cases h : s.errcode = 0 <;> simp [checkFault, State.err, h]

end Sys2Proof.Machine
end

