-- ==== Sys2Proof/Laws/Operands.lean ====
section
/-! SUPPORT. The small lemmas of the byte helpers: bytes of joined words, replaced bytes, masks, bytes of register
files. -/

namespace Sys2Proof.Machine

/-- Bit `k` of byte `j` is bit `8j + k` of the word. -/
theorem wordByte_getLsbD (w : Word) (j k : Nat) : (wordByte w j).getLsbD k = (decide (k < 8) && w.getLsbD (8 * j + k)) := by
  simp [wordByte]

@[inherit_doc wordByte_getLsbD] theorem wordByte_getElem (w : Word) (j : Nat) {k : Nat} (h : k < 8) :
    (wordByte w j)[k] = w.getLsbD (8 * j + k) := by
  rw [← BitVec.getLsbD_eq_getElem, wordByte_getLsbD]; simp [h]

/-- A word is known by its four bytes. -/
theorem word_eq_of_bytes {v w : Word} (h : ∀ j < 4, wordByte v j = wordByte w j) : v = w := by
  apply BitVec.eq_of_getLsbD_eq
  intro i hi
  have hb := congrArg (·.getLsbD (i % 8)) (h (i / 8) (by omega))
  have hm : 8 * (i / 8) + i % 8 = i := by omega
  simpa only [wordByte_getLsbD, hm, Nat.mod_lt, Nat.zero_lt_succ, decide_true, Bool.true_and] using hb

@[simp] theorem wordByte_zero (j : Nat) : wordByte 0#32 j = 0#8 := by
  ext k hk; simp [wordByte_getElem _ _ hk]

/-- The bytes of a word joined from four. -/
theorem wordByte_joinBytes (b0 b1 b2 b3 : Byte) {j : Nat} (hj : j < 4) :
    wordByte (joinBytes b0 b1 b2 b3) j = if j = 0 then b0 else if j = 1 then b1 else if j = 2 then b2 else b3 := by
  ext k hk
  have hc : j = 0 ∨ j = 1 ∨ j = 2 ∨ j = 3 := by omega
  rcases hc with rfl | rfl | rfl | rfl
  · have h1 : k < 8 := hk
    have h2 : k < 16 := by omega
    have h3 : k < 24 := by omega
    have h4 : k < 32 := by omega
    simp [wordByte_getElem _ _ hk, joinBytes, h1, h2, h3, h4]
  · have h0 : ¬ 8 + k < 8 := by omega
    have h2 : 8 + k < 16 := by omega
    have h3 : 8 + k < 24 := by omega
    have h4 : 8 + k < 32 := by omega
    have hz : b0.getLsbD (8 + k) = false := BitVec.getLsbD_of_ge _ _ (by omega)
    simp [wordByte_getElem _ _ hk, joinBytes, hk, h0, h2, h3, h4]
  · have h0 : ¬ 16 + k < 8 := by omega
    have h2 : ¬ 16 + k < 16 := by omega
    have h3 : 16 + k < 24 := by omega
    have h4 : 16 + k < 32 := by omega
    have hz : b0.getLsbD (16 + k) = false := BitVec.getLsbD_of_ge _ _ (by omega)
    have hz1 : b1.getLsbD (16 + k - 8) = false := BitVec.getLsbD_of_ge _ _ (by omega)
    simp [wordByte_getElem _ _ hk, joinBytes, hk, h0, h2, h3, h4, hz, hz1]
  · have h0 : ¬ 24 + k < 8 := by omega
    have h2 : ¬ 24 + k < 16 := by omega
    have h3 : ¬ 24 + k < 24 := by omega
    have h4 : 24 + k < 32 := by omega
    have hz : b0.getLsbD (24 + k) = false := BitVec.getLsbD_of_ge _ _ (by omega)
    have hz1 : b1.getLsbD (24 + k - 8) = false := BitVec.getLsbD_of_ge _ _ (by omega)
    have hz2 : b2.getLsbD (24 + k - 16) = false := BitVec.getLsbD_of_ge _ _ (by omega)
    simp [wordByte_getElem _ _ hk, joinBytes, hk, h0, h2, h3, h4, hz, hz1, hz2]

/-- A word joined from its own bytes. -/
@[simp] theorem joinBytes_wordByte (w : Word) :
    joinBytes (wordByte w 0) (wordByte w 1) (wordByte w 2) (wordByte w 3) = w := by
  apply word_eq_of_bytes
  intro j hj
  rw [wordByte_joinBytes _ _ _ _ hj]
  have hc : j = 0 ∨ j = 1 ∨ j = 2 ∨ j = 3 := by omega
  rcases hc with rfl | rfl | rfl | rfl <;> simp

/-- The bytes of a word after one of them is replaced. -/
theorem wordByte_putByte (w : Word) (b : Byte) {i j : Nat} (hi : i < 4) (hj : j < 4) :
    wordByte (putByte w j b) i = if i = j then b else wordByte w i := by
  ext k hk
  have h32 : 8 * i + k < 32 := by omega
  have hff : (255#32) = (255#8).setWidth 32 := by decide
  by_cases h : i = j
  · subst h
    have h1 : ¬ 8 * i + k < 8 * i := by omega
    have h2 : 8 * i + k - 8 * i = k := by omega
    have h8 : k = 0 ∨ k = 1 ∨ k = 2 ∨ k = 3 ∨ k = 4 ∨ k = 5 ∨ k = 6 ∨ k = 7 := by omega
    have hone : (255#32).getLsbD k = true := by rcases h8 with rfl | rfl | rfl | rfl | rfl | rfl | rfl | rfl <;> decide
    simp [wordByte_getElem _ _ hk, putByte, hk, h32, h1, h2, hone]
  · rcases Nat.lt_or_ge i j with hlt | hge
    · have h1 : 8 * i + k < 8 * j := by omega
      simp [wordByte_getElem _ _ hk, putByte, h32, h1, h]
    · have h1 : ¬ 8 * i + k < 8 * j := by omega
      have h8 : 8 ≤ 8 * i + k - 8 * j := by omega
      have hz : b.getLsbD (8 * i + k - 8 * j) = false := BitVec.getLsbD_of_ge _ _ h8
      have hz' : (255#32).getLsbD (8 * i + k - 8 * j) = false := by
        rw [hff, BitVec.getLsbD_setWidth, BitVec.getLsbD_of_ge _ _ h8]; simp
      rw [BitVec.getLsbD_eq_getElem (by omega)] at hz'
      simp [wordByte_getElem _ _ hk, putByte, h32, h1, hz, hz', h]

/-- A byte inside a register file. -/
theorem fileByte_of_lt {n : Nat} (v : Vector Word n) {p : Nat} (h : p / 4 < n) :
    fileByte v p = wordByte v[p / 4] (p % 4) := by
  simp [fileByte, h]

/-- A byte beyond the end of a register file reads as zero. -/
theorem fileByte_of_ge {n : Nat} (v : Vector Word n) {p : Nat} (h : n ≤ p / 4) : fileByte v p = 0 := by
  have h' : ¬ p / 4 < n := by omega
  simp [fileByte, h']

/-- The bytes of a register file after one of them is replaced. -/
theorem fileByte_putFileByte {n : Nat} (v : Vector Word n) (b : Byte) {p r : Nat} (hr : r / 4 < n) :
    fileByte (putFileByte v p b) r = if r = p then b else fileByte v r := by
  have hr4 : r % 4 < 4 := Nat.mod_lt _ (by decide)
  have hp4 : p % 4 < 4 := Nat.mod_lt _ (by decide)
  rw [fileByte_of_lt _ hr, fileByte_of_lt _ hr]
  by_cases hw : p / 4 = r / 4
  · have hiff : r % 4 = p % 4 ↔ r = p := by omega
    have hget : (putFileByte v p b)[r / 4] = putByte v[r / 4] (p % 4) b := by
      simp [putFileByte, hw, hr]
    rw [hget, wordByte_putByte _ _ hr4 hp4]
    simp [hiff]
  · have hne : r ≠ p := by omega
    have hget : (putFileByte v p b)[r / 4] = v[r / 4] := by
      simp [putFileByte, hw]
    rw [hget]
    simp [hne]

/-- Two register files with the same bytes are the same. -/
theorem file_eq_of_bytes {n : Nat} {v w : Vector Word n} (h : ∀ p, p / 4 < n → fileByte v p = fileByte w p) : v = w := by
  apply Vector.ext
  intro i hi
  apply word_eq_of_bytes
  intro j hj
  have hq : (4 * i + j) / 4 = i := by omega
  have hm : (4 * i + j) % 4 = j := by omega
  have := h (4 * i + j) (by omega)
  rw [fileByte_of_lt _ (by omega), fileByte_of_lt _ (by omega)] at this
  simpa [hq, hm] using this

@[simp] theorem fileByte_zeros16 (p : Nat) : fileByte zeros16 p = 0 := by
  by_cases h : p / 4 < 16
  · rw [fileByte_of_lt _ h]; simp [zeros16]
  · exact fileByte_of_ge _ (by omega)

@[simp] theorem fileByte_replicate_zero (n p : Nat) : fileByte (Vector.replicate n 0) p = 0 := by
  by_cases h : p / 4 < n
  · rw [fileByte_of_lt _ h]; simp
  · exact fileByte_of_ge _ (by omega)

/-- Every word that a file of zeros holds. -/
@[simp] theorem zeros16_getElem {i : Nat} (h : i < 16) : zeros16[i] = 0 := by simp [zeros16]

/-- Bitwise operations act byte by byte. -/
theorem wordByte_xor (v w : Word) (j : Nat) : wordByte (v ^^^ w) j = wordByte v j ^^^ wordByte w j := by
  ext k hk; simp [wordByte_getElem _ _ hk]

@[inherit_doc wordByte_xor] theorem wordByte_and (v w : Word) (j : Nat) :
    wordByte (v &&& w) j = wordByte v j &&& wordByte w j := by
  ext k hk; simp [wordByte_getElem _ _ hk]

end Sys2Proof.Machine
end

