-- ==== Sys2Proof/Laws/PerInstr.lean ====
section
/-! SUPPORT. One fact about the syntax of every instruction: its word is a transaction word for a Host access or command,
an engine control word for an Engine step, and the write bit is set exactly for writes and commands (R90, R91). -/

namespace Sys2Proof.Laws.EncodedFormat

/-- The encoding of `i` has the format of its row (R91). -/
def Statement (i : Instr) : Prop :=
  match encode i with
  | .tw t => i.format ≠ .eng ∧ (twWe t = true ↔ i.format = .wr ∨ i.format = .cmd)
  | .ew _ => i.format = .eng

theorem rdstat : Statement .rdstat := by simp [Statement, encode, readTw, Instr.format]
theorem rdlens : Statement .rdlens := by simp [Statement, encode, readTw, Instr.format]
theorem rdctr : Statement .rdctr := by simp [Statement, encode, readTw, Instr.format]
theorem rddin (i : Fin 16) : Statement (.rddin i) := by simp [Statement, encode, readTw, Instr.format]
theorem rddout (i : Fin 16) : Statement (.rddout i) := by simp [Statement, encode, readTw, Instr.format]
theorem rdzero (widx : BitVec 7) : Statement (.rdzero widx) := by simp [Statement, encode, readTw, Instr.format]
theorem keyb (b : Byte) : Statement (.keyb b) := by simp [Statement, encode, writeTw, Instr.format]
theorem nonceb (b : Byte) : Statement (.nonceb b) := by simp [Statement, encode, writeTw, Instr.format]
theorem setctr (w : Word) : Statement (.setctr w) := by simp [Statement, encode, writeTw, Instr.format]
theorem din (i : Fin 16) (w : Word) : Statement (.din i w) := by simp [Statement, encode, writeTw, Instr.format]
theorem nop : Statement .nop := by simp [Statement, encode, writeTw, Instr.format]
theorem go (n : BitVec 7) : Statement (.go n) := by simp [Statement, encode, writeTw, Instr.format]
theorem clr : Statement .clr := by simp [Statement, encode, writeTw, Instr.format]
theorem illcmd (v : Word) : Statement (.illcmd v) := by simp [Statement, encode, writeTw, Instr.format]
theorem wrign (widx : BitVec 7) (v : Word) : Statement (.wrign widx v) := by simp [Statement, encode, writeTw, Instr.format]
theorem einit : Statement .einit := by simp [Statement, encode, Instr.format]
theorem eqr (q : BitVec 7) : Statement (.eqr q) := by simp [Statement, encode, Instr.format]
theorem efinal : Statement .efinal := by simp [Statement, encode, Instr.format]

end Sys2Proof.Laws.EncodedFormat
end

