-- ==== Sys2Proof/Tests/Slice0.lean ====
section
/-! SUPPORT. Tests: expected values are the spec's own (the rule or the vector of 95_test_vectors.md is named); and, for
every statement with hypotheses, a state and operands that meet them. -/

namespace Sys2Proof.Tests

open Sys2Proof.Machine

/-! ### Small states -/

/-- The next state of a result. -/
def after : Result → Option State
  | .next t => some t
  | .fault _ => none
  | .refused _ => none

/-- The value a read returns. -/
def value (r : Result) : Option Word := (after r).map lastRead

/-- What `RDSTAT` reads after a result. -/
def statusAfter (r : Result) : Option Word := (after r).map statusWord

/-- What `RDLENS` reads after a result. -/
def lensAfter (r : Result) : Option Word := (after r).map lensWord

/-- Idle, unlocked, key and nonce of the right lengths (all zero bytes). -/
def ready : State := { State.reset with keyCnt := 32, nonceCnt := 12 }

/-- The state an accepted `GO n` leaves from `ready`. -/
def started (n : BitVec 7) : State := { ready with blen := n, phase := .init }

/-- The state E.INIT leaves after it, on a core with `QR_LANES = L`. -/
def rounds (L : Lanes) (n : BitVec 7) : State :=
  { started n with lanes := L, phase := .round, x := initState ready.key ready.ctr ready.nonce }

/-- The last phase of a block; `x` is the working array after the rounds. -/
def last (x : Words16) (n : BitVec 7) : State := { started n with phase := .final, q := 80, x := x }

/-- Locked on `InvalidKeyLength`. -/
def locked : State := { State.reset with errcode := 1 }

/-- `X` after `Q = 80` for the all-zero key, nonce and counter (T1, R133). -/
def xT1 : Words16 := #v[
  0x4c704011, 0x5d1d8d32, 0x6c08300e, 0xbd9d20df, 0xb819d2bd, 0x1aed8da0, 0xccef36a8, 0xc70d778b,
  0x7c5941da, 0x8d485751, 0x3fe02477, 0x374ad8b8, 0xf4b8436a, 0x1ca11815, 0x69b687c3, 0x8665eeb2]

/-- Key of T3, T4: 31 zero bytes, then `0x01`. -/
def keyT4 : List Byte := List.replicate 31 0 ++ [1]

/-- Twelve zero bytes. -/
def nonceT4 : List Byte := List.replicate 12 0

/-! ### Well-formedness: an ill-formed term for each check -/

theorem test_wf_rdzero_readable_index : Instr.wf .one (.rdzero 1) = false := by decide
theorem test_wf_rdzero_data_index : Instr.wf .one (.rdzero 47) = false := by decide
theorem test_wf_wrign_command_index : Instr.wf .one (.wrign 0 5) = false := by decide
theorem test_wf_wrign_data_index : Instr.wf .one (.wrign 31 5) = false := by decide
theorem test_wf_go_too_long : Instr.wf .one (.go 65) = false := by decide
theorem test_wf_illcmd_legal_go : Instr.wf .one (.illcmd 0x00004001) = false := by decide
theorem test_wf_illcmd_clr : Instr.wf .one (.illcmd 2) = false := by decide
theorem test_wf_eqr_past_the_end : Instr.wf .one (.eqr 80) = false := by decide
theorem test_wf_eqr_not_a_multiple : Instr.wf .four (.eqr 2) = false := by decide
theorem test_wf_good_terms : Instr.wf .four (.eqr 76) = true ∧ Instr.wf .one (.go 64) = true ∧
    Instr.wf .two (.rdzero 48) = true ∧ Instr.wf .two (.wrign 47 1) = true ∧ Instr.wf .one (.illcmd 0x00004101) = true := by
  decide

/-! ### Decoding: words written out bit by bit from the patterns of R95 -/

theorem test_decode_rdstat : decodeTw 0b0000000100000000000000000000000000000000 = .rdstat := by decide
theorem test_decode_rdlens : decodeTw 0b0000001000000000000000000000000000000000 = .rdlens := by decide
theorem test_decode_rdctr : decodeTw 0b0000001100000000000000000000000000000000 = .rdctr := by decide
theorem test_decode_rddin : decodeTw 0b0001101100000000000000000000000000000000 = .rddin 11 := by decide
theorem test_decode_rddout : decodeTw 0b0010110100000000000000000000000000000000 = .rddout 13 := by decide
theorem test_decode_rdzero : decodeTw 0b0111111100000000000000000000000000000000 = .rdzero 127 := by decide
theorem test_decode_keyb : decodeTw 0b1000010000000000000000000000000010100101 = .keyb 0xA5 := by decide
theorem test_decode_nonceb : decodeTw 0b1000010100000000000000000000000001001010 = .nonceb 0x4A := by decide
theorem test_decode_setctr : decodeTw 0b1000001110000000000000000000000000000001 = .setctr 0x80000001 := by decide
theorem test_decode_din : decodeTw 0b1001111111001010111111101111000000001101 = .din 15 0xCAFEF00D := by decide
theorem test_decode_nop : decodeTw 0b1000000000000000000000000000000000000000 = .nop := by decide
theorem test_decode_go : decodeTw 0b1000000000000000000000000100000000000001 = .go 64 := by decide
theorem test_decode_clr : decodeTw 0b1000000000000000000000000000000000000010 = .clr := by decide
theorem test_decode_illcmd : decodeTw 0b1000000000000000000000000100000100000001 = .illcmd 0x00004101 := by decide
theorem test_decode_wrign : decodeTw 0b1010000011111111111111111111111111111111 = .wrign 32 0xFFFFFFFF := by decide
theorem test_decode_einit : decodeEw .two 0b010000000 = .ok .einit := by decide
theorem test_decode_eqr : decodeEw .one 0b101001111 = .ok (.eqr 79) := by decide
theorem test_decode_efinal : decodeEw .four 0b111010000 = .ok .efinal := by decide

/-- A byte port ignores bits 31:8 (T30). -/
theorem test_decode_keyb_ignores_high_bits : decodeTw 0x84FFFFFF5A = .keyb 0x5A := by decide

/-- Words that are no instruction (R97). -/
theorem test_decode_rejects_engine_words : decodeEw .one 0x000 = .error .engineIdle ∧
    decodeEw .one 0x150 = .error .reservedEngineWord ∧ decodeEw .four 0x102 = .error .reservedEngineWord ∧
    decodeEw .one 0x180 = .error .reservedEngineWord ∧ decodeEw .one 0x081 = .error .reservedEngineWord := by decide

/-- Accesses by byte offset (R61, R100): `WR 0xBC` is T33's word; an odd or too large offset is no access. -/
theorem test_offsets : regWrite 0xBC 0xFFFFFFFF = some 0xAFFFFFFFFF ∧ regRead 0x1FC = some 0x7F00000000 ∧
    regRead 0x3E = none ∧ regWrite 0x200 0 = none := by decide

/-- The host's numbering reaches the same decoder, and the placed word runs as the next step. -/
theorem test_table_word : decodeTableWord 40 0x8000000003 = some (.illcmd 3) ∧ decodeTableWord 16 0x1D0 = some .efinal ∧
    statusAfter (step (State.reset.withFetchWord 40 0x8000000003)) = some 0x00000404 := by decide

/-! ### Reads (R180 to R185) -/

theorem test_rdstat_reset : value (exec .rdstat State.reset) = some 0x00000000 := by decide
theorem test_rdstat_wrapped :
    value (exec .rdstat { ready with valid := true, ctrOvf := true }) = some 0x0000000A := by decide
/-- R181: 40 key bytes and 12 nonce bytes; 32, 12 and an accepted `GO 36`. -/
theorem test_rdlens : value (exec .rdlens { ready with keyCnt := 33 }) = some 0x00000C21 ∧
    value (exec .rdlens (started 36)) = some 0x00240C20 := by decide
theorem test_rdctr : value (exec .rdctr { ready with ctr := 0xDEADBEEF }) = some 0xDEADBEEF := by decide
theorem test_rddin : value (exec (.rddin 15) { ready with din := zeros16.set 15 0xCAFEF00D }) = some 0xCAFEF00D ∧
    value (exec (.rddin 14) { ready with din := zeros16.set 15 0xCAFEF00D }) = some 0 := by decide
theorem test_rddout : value (exec (.rddout 15) { ready with dout := zeros16.set 15 0x8665EEB2 }) = some 0x8665EEB2 := by decide
/-- T35: a key port reads zero whatever the key. -/
theorem test_rdzero : value (exec (decodeTw 0x0400000000) { ready with key := Vector.replicate 8 0xFFFFFFFF }) = some 0 := by
  decide

/-! ### Writes (R186 to R190) -/

/-- T30: the fifth byte is byte 0 of `KEY[1]`. -/
theorem test_keyb_fifth : (after (exec (.keyb 0xA4) { State.reset with keyCnt := 4, key := (Vector.replicate 8 0).set 0 0xa3a2a1a0 })).map
    (fun t => (t.key[0], t.key[1], t.keyCnt)) = some (0xa3a2a1a0, 0x000000a4, 5) := by decide
/-- T30: the 33rd byte is dropped. -/
theorem test_keyb_33rd : (after (exec (.keyb 0xC0) { State.reset with keyCnt := 32, key := (Vector.replicate 8 0).set 7 0xbfbebdbc })).map
    (fun t => (t.key[7], t.keyCnt)) = some (0xbfbebdbc, 33) := by decide
/-- T31: the twelfth byte; then the count saturates. -/
theorem test_nonceb_twelfth :
    (after (exec (.nonceb 0x1b) { State.reset with nonceCnt := 11, nonce := (Vector.replicate 3 0).set 2 0x001a1918 })).map
      (fun t => (t.nonce[2], lensWord t)) = some (0x1b1a1918, 0x00000C00) := by decide
theorem test_nonceb_saturates : lensAfter (exec (.nonceb 0x1d) { State.reset with nonceCnt := 13 }) = some 0x00000D00 := by
  decide
/-- T32: writing the value `CTR` holds still clears `CTR_OVF`. -/
theorem test_setctr_clears_overflow :
    statusAfter (exec (.setctr 0) { ready with ctrOvf := true, valid := true }) = some 0x00000002 := by decide
theorem test_setctr_busy : statusAfter (exec (.setctr 7) (started 64)) = some 0x00000504 := by decide
theorem test_din : (after (exec (decodeTw 0x906964614C) { ready with valid := true })).map
    (fun t => (t.din[0], t.din[1], t.valid)) = some (0x6964614C, 0, true) := by decide
theorem test_din_locked : (after (exec (.din 3 5) locked)).map (fun t => (t.din[3], t.errcode)) = some (0, 1) := by decide
/-- T36: an ignored write raises nothing, also while busy. -/
theorem test_wrign_busy : after (exec (decodeTw 0xA0FFFFFFFF) (started 64)) = some (started 64) := by decide

/-! ### Commands (R200 to R204) -/

theorem test_nop_busy : after (exec .nop (started 64)) = some (started 64) := by decide
/-- T40, the accepted rows. -/
theorem test_go_accepted : statusAfter (exec (.go 64) ready) = some 0x00000001 ∧
    statusAfter (exec (.go 1) ready) = some 0x00000001 ∧ statusAfter (exec (.go 0) ready) = some 0x00000002 ∧
    statusAfter (exec (.go 0) { ready with ctrOvf := true }) = some 0x0000000A := by decide
/-- T40, the faulting rows. -/
theorem test_go_faults : statusAfter (exec (.go 64) { ready with ctrOvf := true }) = some 0x0000030C ∧
    statusAfter (exec (.go 64) { ready with keyCnt := 33 }) = some 0x00000104 ∧
    statusAfter (exec (.go 0) { ready with keyCnt := 0 }) = some 0x00000104 ∧
    statusAfter (exec (.go 64) { ready with nonceCnt := 13 }) = some 0x00000204 ∧
    statusAfter (exec (.go 64) { ready with keyCnt := 31, nonceCnt := 11, ctrOvf := true }) = some 0x0000010C := by decide
theorem test_clr_locked : after (exec .clr { locked with din := zeros16.set 2 9, ctr := 4 }) = some State.reset := by decide
theorem test_clr_busy : after (exec .clr (started 64)) = some State.reset := by decide
/-- T41: words that are no command, in the reset state. -/
theorem test_illcmd : statusAfter (exec (decodeTw 0x8000000012) State.reset) = some 0x00000404 ∧
    statusAfter (exec (decodeTw 0x8080000001) State.reset) = some 0x00000404 ∧
    statusAfter (exec (decodeTw 0x8000000100) State.reset) = some 0x00000404 := by decide
/-- R204: `BusyWrite` before `IllegalCommand`. -/
theorem test_illcmd_busy : statusAfter (exec (.illcmd 3) (started 64)) = some 0x00000504 := by decide

/-! ### The algorithm -/

/-- T0. -/
theorem test_rotl32 : rotl32 0x12345678 16 = 0x56781234 ∧ rotl32 0x12345678 12 = 0x45678123 ∧
    rotl32 0x12345678 8 = 0x34567812 ∧ rotl32 0x12345678 7 = 0x1a2b3c09 := by decide
/-- T7, rows nine and two. -/
theorem test_qr4 : qr4 0x11111111 0x01020304 0x9b8d6f43 0x01234567 = (0xea2a92f4, 0xcb1cf8ce, 0x4581472e, 0x5881c4bb) ∧
    qr4 0xffffffff 0xffffffff 0xffffffff 0xffffffff = (0xf0000ffd, 0x88790878, 0x0110fdef, 0x010ffdf0) := by decide
/-- T9. -/
theorem test_qidx : qidx 77 = ⟨1, 6, 11, 12⟩ ∧ qidx 79 = ⟨3, 4, 9, 14⟩ ∧ qidx 75 = ⟨3, 7, 11, 15⟩ := by decide
/-- T11: placement in the matrix (bytes all distinct). -/
theorem test_placement : initState (keyWords ((List.range 32).map (BitVec.ofNat 8))) 0x01020304
    (nonceWords ((List.range 12).map fun k => BitVec.ofNat 8 (0xa0 + k))) = #v[
    0x61707865, 0x3320646e, 0x79622d32, 0x6b206574, 0x03020100, 0x07060504, 0x0b0a0908, 0x0f0e0d0c,
    0x13121110, 0x17161514, 0x1b1a1918, 0x1f1e1d1c, 0x01020304, 0xa3a2a1a0, 0xa7a6a5a4, 0xabaaa9a8] := by decide
/-- T1: the working array after twenty rounds. -/
theorem test_rounds20 : rounds20 (initState ready.key 0 ready.nonce) = xT1 := by decide +kernel
/-- T4: the first bytes of a block, and T26: one byte processed. -/
theorem test_process : process keyT4 nonceT4 1 [0x00, 0x01, 0x02] = .ok [0x3a, 0xea, 0x50] := by decide +kernel
/-- T20. -/
theorem test_mask : mask 37 9 = 0x000000FF ∧ mask 50 12 = 0x0000FFFF ∧ mask 63 15 = 0x00FFFFFF ∧ mask 36 8 = 0xFFFFFFFF ∧
    mask 36 9 = 0 ∧ mask 0 0 = 0 ∧ mask 64 15 = 0xFFFFFFFF := by decide
/-- T23. -/
theorem test_counter : inc 0xfffffffe = 0xffffffff ∧ wrap 0xfffffffe = false ∧ inc 0xffffffff = 0 ∧ wrap 0xffffffff = true := by
  decide

/-! ### Engine steps (R127, R128, R155) -/

theorem test_einit : (after (exec .einit (started 64))).map (fun t => (t.x[0], t.x[4], t.phase, t.q)) =
    some (0x61707865, 0, .round, 0) := by decide
/-- T6, after `q = 0` with one lane. -/
theorem test_eqr_one_lane : (after (exec (.eqr 0) (rounds .one 64))).map
    (fun t => (t.x[0], t.x[4], t.x[8], t.x[12], t.x[1], t.q)) =
    some (0xb7877feb, 0x4a7d5c86, 0x5a83fd3f, 0xe21e9bcf, 0x3320646e, 1) := by decide
/-- T6, after `q = 3` with four lanes. -/
theorem test_eqr_four_lanes : (after (exec (.eqr 0) (rounds .four 64))).map
    (fun t => (t.x[3], t.x[7], t.x[11], t.x[15], t.q, t.phase)) =
    some (0xb1d26bcb, 0xe3a851a6, 0x0b7556f4, 0xa600ebd4, 4, .round) := by decide
/-- R155, worked example. -/
theorem test_efinal : (after (exec .efinal (last xT1 64))).map
    (fun t => (t.dout[0], t.dout[4], t.ctr, t.valid, t.phase)) = some (0xade0b876, 0xb819d2bd, 1, true, .idle) := by decide
/-- T22: a block of two bytes with stray input bits. -/
theorem test_efinal_partial : (after (exec .efinal { last (zeros16.set 0 0x3e1b5e31) 2 with
    ctr := 2, din := (Vector.replicate 16 0xFFFFFFFF).set 0 0xEEEE4140 })).map
    (fun t => (t.dout[0], t.dout[1], t.ctr, t.ctrOvf)) = some (0x000097D6, 0, 3, false) := by decide

/-! ### Witnesses: states and operands that meet the hypotheses of the statements -/

/-- A state with all-zero key, nonce and `DOUT` meets the invariants when its scalars do. -/
theorem inv_of_zero_files (s : State) (hk : s.key = Vector.replicate 8 0) (hn : s.nonce = Vector.replicate 3 0)
    (hd : s.dout = zeros16) (ha : s.keyCnt.toNat ≤ 33 ∧ s.nonceCnt.toNat ≤ 13 ∧ s.blen.toNat ≤ 64 ∧ s.errcode.toNat ≤ 5 ∧
      s.q.toNat ≤ 80) (hb : s.phase = .idle ∨ s.phase = .init → s.q = 0 ∧ s.x = zeros16)
    (hr : s.phase = .round → s.q.toNat < 80 ∧ s.q.toNat % s.lanes.count = 0) (hf : s.phase = .final → s.q = 80)
    (hw : s.phase ≠ .idle → s.errcode = 0 ∧ s.valid = false ∧ s.ctrOvf = false ∧ s.keyCnt = 32 ∧ s.nonceCnt = 12 ∧
      1 ≤ s.blen.toNat) (he : s.errcode ≠ 0 → s.phase = .idle ∧ s.valid = false)
    (hv : s.valid = true → s.phase = .idle ∧ s.errcode = 0) : CoreInv s where
  keyCnt_le := ha.1
  nonceCnt_le := ha.2.1
  blen_le := ha.2.2.1
  errcode_le := ha.2.2.2.1
  q_le := ha.2.2.2.2
  idle_clean h := hb (.inl h)
  init_clean h := hb (.inr h)
  round_q := hr
  final_q := hf
  busy_clean h := ⟨(hw h).1, (hw h).2.1, (hw h).2.2.1, (hw h).2.2.2.1, (hw h).2.2.2.2.1, (hw h).2.2.2.2.2, ha.2.2.1, hd⟩
  fault_clean h := ⟨(he h).1, (he h).2, hd⟩
  valid_idle := hv
  invalid_zero _ := hd
  dout_beyond p _ := by rw [hd]; exact fileByte_zeros16 p
  key_beyond p _ := by rw [hk]; exact fileByte_replicate_zero 8 p
  nonce_beyond p _ := by rw [hn]; exact fileByte_replicate_zero 3 p

theorem inv_reset : CoreInv State.reset :=
  inv_of_zero_files _ rfl rfl rfl (by decide) (by decide) (by decide) (by decide) (by decide) (by decide) (by decide)
theorem inv_ready : CoreInv ready :=
  inv_of_zero_files _ rfl rfl rfl (by decide) (by decide) (by decide) (by decide) (by decide) (by decide) (by decide)
theorem inv_locked : CoreInv locked :=
  inv_of_zero_files _ rfl rfl rfl (by decide) (by decide) (by decide) (by decide) (by decide) (by decide) (by decide)
theorem inv_started : CoreInv (started 64) :=
  inv_of_zero_files _ rfl rfl rfl (by decide) (by decide) (by decide) (by decide) (by decide) (by decide) (by decide)
theorem inv_rounds : CoreInv (rounds .four 64) :=
  inv_of_zero_files _ rfl rfl rfl (by decide) (by decide) (by decide) (by decide) (by decide) (by decide) (by decide)
theorem inv_last : CoreInv (last xT1 64) :=
  inv_of_zero_files _ rfl rfl rfl (by decide) (by decide) (by decide) (by decide) (by decide) (by decide) (by decide)

/-- `DecodeOfEncode`: the largest operands. -/
theorem witness_DecodeOfEncode : Instr.wf .two (.eqr 78) = true ∧ Instr.wf .four (.go 64) = true ∧
    Instr.wf .one (.wrign 127 0xFFFFFFFF) = true ∧ Instr.wf .one (.illcmd 0xFFFFFFFF) = true := by decide
/-- `DecodedInstructionsAreWellFormed`, `EncodeOfDecode`, `DecodingFollowsTheOpcodeTable`. -/
theorem witness_DecodedInstructions : decode .one (.ew 0x14F) = .ok (.eqr 79) ∧ decode .four (.tw 0x8000004101) = .ok (.illcmd 0x4101) ∧
    decodeEw .four 0x14C = .ok (.eqr 76) := by decide
/-- `StepRunsTheDecodedInstruction`: an access, an Engine turn (scripted, and at the script's end), a refused control word,
an idle turn, Reset. -/
theorem witness_StepRuns : (ready.withAccess 0x0100000000).script = .access 0x0100000000 :: [] ∧
    (ready.withEngineWord 0x080).script = .engine :: [] ∧ (ready.withEngineWord 0x080).phase ≠ .idle ∧
    decode .four (.ew (engineWord (ready.withEngineWord 0x080))) = .ok .einit ∧
    (started 64).script = [] ∧ (started 64).phase ≠ .idle ∧ decode .four (.ew (engineWord (started 64))) = .ok .einit ∧
    decode .four (.ew (engineWord { started 64 with q := 1 })) = .error .reservedEngineWord ∧
    ready.script = [] ∧ ready.phase = .idle ∧ { ready with script := [.reset] }.script = [.reset] := by decide
/-- `EngineHasTheStepOfItsPhase`: a state that meets the invariants in every phase. -/
theorem witness_EngineHasTheStep : (CoreInv ready ∧ ready.phase = .idle) ∧ (CoreInv (started 64) ∧ (started 64).phase = .init) ∧
    (CoreInv (rounds .four 64) ∧ (rounds .four 64).phase = .round) ∧ (CoreInv (last xT1 64) ∧ (last xT1 64).phase = .final) :=
  ⟨⟨inv_ready, rfl⟩, ⟨inv_started, rfl⟩, ⟨inv_rounds, rfl⟩, ⟨inv_last, rfl⟩⟩
/-- `EveryRegisterReadsZeroAfterReset`. -/
theorem witness_EveryRegisterReadsZero : State.reset.atReset := by
  unfold State.atReset; decide
/-- `RdstatReturnsTheFlags`: both premises about the value. -/
theorem witness_Rdstat : (CoreInv (started 64) ∧ (statusWord (started 64)).getLsbD 0 = true) ∧
    (CoreInv locked ∧ (statusWord locked).getLsbD 2 = true) := ⟨⟨inv_started, by decide⟩, ⟨inv_locked, by decide⟩⟩
/-- `CounterAndDataReads`: `VALID = 0`; and word 1 of a valid block of 4 bytes. -/
theorem witness_CounterAndDataReads : (CoreInv ready ∧ ready.valid = false) ∧
    (CoreInv { ready with valid := true, blen := 4 } ∧ (4 + 3) / 4 ≤ (1 : Fin 16).val) :=
  ⟨⟨inv_ready, rfl⟩, inv_of_zero_files _ rfl rfl rfl (by decide) (by decide) (by decide) (by decide) (by decide) (by decide)
    (by decide), by decide⟩
/-- `ReadsRevealNoSecret`: two busy phases. -/
theorem witness_ReadsRevealNoSecret : (Phase.final = .idle ↔ (started 64).phase = .idle) := by decide
/-- The gate's three cases, for `KEYB`, `NONCEB`, `SETCTR`, `DIN`, `GO`, `ILLCMD` and the lock. -/
theorem witness_gate : locked.errcode ≠ 0 ∧ ((started 64).errcode = 0 ∧ (started 64).phase ≠ .idle) ∧
    (ready.errcode = 0 ∧ ready.phase = .idle) := by decide
/-- `KeybAppendsAKeyByte`: byte 31 is the last one taken, byte 32 the first one dropped. -/
theorem witness_Keyb : (State.reset.errcode = 0 ∧ State.reset.phase = .idle ∧ State.reset.keyCnt.toNat < 32) ∧
    { State.reset with keyCnt := 31 }.keyCnt.toNat < 32 ∧ 32 ≤ ready.keyCnt.toNat := by decide
/-- `NoncebAppendsANonceByte`: byte 11 is the last one taken, byte 12 the first one dropped. -/
theorem witness_Nonceb : (State.reset.errcode = 0 ∧ State.reset.phase = .idle ∧ State.reset.nonceCnt.toNat < 12) ∧
    { State.reset with nonceCnt := 11 }.nonceCnt.toNat < 12 ∧ 12 ≤ ready.nonceCnt.toNat := by decide
/-- `LoadedBytesAssembleLittleEndian`. -/
theorem witness_LoadedBytes : State.reset.errcode = 0 ∧ State.reset.phase = .idle ∧ State.reset.keyCnt = 0 ∧
    State.reset.nonceCnt = 0 ∧ keyT4.length = 32 ∧ nonceT4.length = 12 := by decide
/-- `BlockBytesPassLittleEndian`: the shortest and the longest block. -/
theorem witness_BlockBytesPass : 1 ≤ [(7 : Byte)].length ∧ [(7 : Byte)].length ≤ 64 ∧
    1 ≤ (List.replicate 64 (7 : Byte)).length ∧ (List.replicate 64 (7 : Byte)).length ≤ 64 ∧ (1 + 3) / 4 ≤ (1 : Fin 16).val := by
  decide
/-- `IgnoredWritesAndZeroReads`: the indexes at the ends of each range. -/
theorem witness_IgnoredWrites : decodeTw (mkTw true 1 5) = .wrign 1 5 ∧ decodeTw (mkTw true 2 5) = .wrign 2 5 ∧
    decodeTw (mkTw true 6 5) = .wrign 6 5 ∧ decodeTw (mkTw true 15 5) = .wrign 15 5 ∧ decodeTw (mkTw true 32 5) = .wrign 32 5 ∧
    decodeTw (mkTw true 127 5) = .wrign 127 5 ∧ value (exec (decodeTw (mkTw false 0 5)) ready) = some 0 ∧
    value (exec (decodeTw (mkTw false 5 5)) ready) = some 0 ∧ value (exec (decodeTw (mkTw false 6 5)) ready) = some 0 ∧
    value (exec (decodeTw (mkTw false 15 5)) ready) = some 0 ∧ value (exec (decodeTw (mkTw false 48 5)) ready) = some 0 ∧
    value (exec (decodeTw (mkTw false 127 5)) ready) = some 0 := by decide
/-- `GoChecksThenStartsTheBlock`: each case of R201, and the lengths 0, 1 and 64. -/
theorem witness_Go : (State.reset.errcode = 0 ∧ State.reset.phase = .idle ∧ State.reset.keyCnt ≠ 32) ∧
    ({ ready with nonceCnt := 11 }.keyCnt = 32 ∧ { ready with nonceCnt := 11 }.nonceCnt ≠ 12) ∧
    (ready.keyCnt = 32 ∧ ready.nonceCnt = 12 ∧ ready.ctrOvf = false) ∧ { ready with ctrOvf := true }.ctrOvf = true ∧
    (0 : BitVec 7).toNat ≤ 64 ∧ (1 : BitVec 7) ≠ 0 ∧ (64 : BitVec 7) ≠ 0 ∧ (64 : BitVec 7).toNat ≤ 64 := by decide
/-- `IllegalCommandWordFaults`, `ControlWritesAreHandledInOrder`: words on both sides of "legal". -/
theorem witness_CommandWords : decodeCommand 0x00004001 = .go 64 ∧ decodeCommand 0x00004101 = .illcmd 0x00004101 ∧
    decodeCommand 0x00000001 = .go 0 ∧ decodeCommand 0x00008001 = .illcmd 0x00008001 ∧
    decodeCommand 0x00000011 = .illcmd 0x00000011 ∧ decodeCommand 0x00000003 = .illcmd 3 := by decide
/-- `exec i s` answers a next state of which `p` holds. -/
def nextHas (i : Instr) (s : State) (p : State → Bool) : Bool := ((after (exec i s)).map p).getD false

/-- A state and an instruction for which `nextHas` holds meet a premise "exec answers next t, and `p t`". -/
theorem next_of_nextHas {i : Instr} {s : State} {p : State → Bool} (h : nextHas i s p = true) :
    ∃ t, exec i s = .next t ∧ p t = true := by
  unfold nextHas at h
  generalize exec i s = r at h ⊢
  cases r with
  | next t => exact ⟨t, rfl, h⟩
  | fault f => cases f
  | refused f => simp [after] at h

/-- `RecordingAFaultIsTheFaultEntry`, `FaultPriority`: each of the five codes. -/
theorem witness_RecordingAFault : State.reset.errcode = 0 ∧
    nextHas (.go 64) State.reset (fun t => t.errcode = 1) = true ∧
    nextHas (.go 0) { ready with nonceCnt := 13 } (fun t => t.errcode = 2) = true ∧
    nextHas (.go 1) { ready with ctrOvf := true } (fun t => t.errcode = 3) = true ∧
    nextHas (.illcmd 3) State.reset (fun t => t.errcode = 4) = true ∧
    nextHas (.din 0 1) (started 64) (fun t => t.errcode = 5) = true := by decide
/-- `FaultPriority`, second clause, and `LockedCoreIgnoresWrites`: a locked core that meets the invariants. -/
theorem witness_Locked : CoreInv locked ∧ locked.errcode ≠ 0 ∧ nextHas (.go 64) locked (fun t => t.errcode = 1) = true ∧
    nextHas .clr locked (fun t => t.errcode = 0) = true ∧ Instr.format (.keyb 1) = .wr ∧ Instr.format (.go 64) = .cmd ∧
    (Instr.go 64 ≠ .clr) := ⟨inv_locked, by decide⟩
/-- `BusyWriteIsRaisedByExactlyTheGatedWrites`: a gated write, a read and an Engine step of a busy core. -/
theorem witness_BusyWrite : (started 64).errcode = 0 ∧ (started 64).phase ≠ .idle ∧
    nextHas (.keyb 1) (started 64) (fun t => t.errcode = 5) = true ∧ nextHas .rdstat (started 64) (fun t => t.errcode = 0) = true ∧
    nextHas .einit (started 64) (fun t => t.errcode = 0) = true := by decide
/-- `OnlyClrAndResetUnlock`: both ways out. -/
theorem witness_Unlock :
    (∃ t, step { locked with script := [.reset] } = .next t ∧ t.errcode ≠ locked.errcode) ∧
    (∃ t, step { locked with script := [.access 0x8000000002] } = .next t ∧ t.errcode ≠ locked.errcode) :=
  ⟨⟨State.reset, rfl, by decide⟩, ⟨State.reset, rfl, by decide⟩⟩
/-- `RotationMovesEveryBit`, `QuarterRoundIndicesFormula`: the ends of the ranges. -/
theorem witness_Rotation : ((7 = 16 ∨ 7 = 12 ∨ 7 = 8 ∨ 7 = 7) ∧ 31 < 32) ∧ 79 ≤ 79 ∧ 79 % 8 % 4 = 3 ∧ 4 ≤ 79 % 8 ∧ 75 % 8 < 4 := by
  decide
/-- `QuarterRoundIsTheTwelveAssignments`: distinct indices. -/
theorem witness_QuarterRound : (0 : Fin 16) ≠ 5 ∧ (0 : Fin 16) ≠ 10 ∧ (0 : Fin 16) ≠ 15 ∧ (5 : Fin 16) ≠ 10 ∧
    (5 : Fin 16) ≠ 15 ∧ (10 : Fin 16) ≠ 15 := by decide
/-- `QuarterRoundsOfARoundCommute`: the first and the last quarter-round of the last round. -/
theorem witness_Commute : 76 / 4 = 79 / 4 ∧ 76 ≠ 79 := by decide
/-- `BlockBytes`, `ProcessProperties`, `ProcessSequenceComputesProcess`: lengths right, counter domain at its end. -/
theorem witness_Process : keyT4.length = 32 ∧ nonceT4.length = 12 ∧ inDomain 0xFFFFFFFF 64 = true ∧ inDomain 0 0 = true ∧
    inDomain 1 114 = true := by decide
/-- `ProcessSequenceComputesProcess`, the wrong lengths; `ProcessSequenceStopsOnCounterWrap`, one byte too many;
`ProcessSequenceForgetsTheCore`. -/
theorem witness_ProcessSequence : (List.replicate 33 (1 : Byte)).length ≠ 32 ∧ ([] : List Byte).length ≠ 32 ∧
    (List.replicate 13 (1 : Byte)).length ≠ 12 ∧ inDomain 0xFFFFFFFF 65 = false ∧ ready.lanes = locked.lanes := by decide
/-- `MaskBytes`: every clause at the ends of its range. -/
theorem witness_Mask : (64 ≤ 64 ∧ 15 ≤ 15 ∧ 4 * 15 + 4 ≤ 64) ∧ 60 ≤ 4 * 15 ∧ 61 = 4 * 15 + 1 ∧ 62 = 4 * 15 + 2 ∧ 63 = 4 * 15 + 3 := by
  decide
/-- `EinitLoadsTheMatrix`, `EqrAppliesTheLanes` (the last step of the rounds too), `EfinalWritesTheOutputBytes`. -/
theorem witness_EngineSteps : (started 64).phase = .init ∧ (rounds .two 64).phase = .round ∧
    { rounds .four 64 with q := 76 }.q.toNat < 80 ∧ { rounds .four 64 with q := 76 }.q.toNat % Lanes.four.count = 0 ∧
    (last xT1 64).phase = .final := by decide
/-- `StaleInputBytesNeverMatter`: the bytes from 2 on differ. -/
theorem witness_StaleInput : (last xT1 2).phase = .final ∧
    ∀ p, p < (last xT1 2).blen.toNat → fileByte ((last xT1 2).din.set 0 0xEEEE0000) p = fileByte (last xT1 2).din p := by decide
/-- `RoundsDoNotDependOnLanes`. -/
theorem witness_Rounds : (rounds .one 64).phase = .round ∧ (rounds .one 64).q = 0 ∧ 80 ≤ 80 ∧ 80 % 4 = 0 := by decide
/-- `OneBlockIsBlockWords`: one byte and 64, the Engine's turns with a read among them. -/
theorem witness_OneBlock : ready.phase = .idle ∧ ready.errcode = 0 ∧ ready.keyCnt = 32 ∧ ready.nonceCnt = 12 ∧
    ready.ctrOvf = false ∧ 1 ≤ (1 : BitVec 7).toNat ∧ (64 : BitVec 7).toNat ≤ 64 ∧
    engineTurns (.access (readTw 1) :: List.replicate 22 .engine) = ready.lanes.stepsPerBlock ∧
    keyWords (List.replicate 32 0) = ready.key ∧ nonceWords nonceT4 = ready.nonce := by decide
/-- `OneBlockIsBlockWords`, `BusyLastsStepsPerBlock`: each event is an Engine turn or a read. -/
theorem witness_ReadsAmongTurns : ∀ e ∈ (Event.access (readTw 1) :: List.replicate 22 .engine),
    e = .engine ∨ ∃ widx, e = .access (readTw widx) := by
  intro e he
  rcases List.mem_cons.1 he with rfl | he
  · exact .inr ⟨1, rfl⟩
  · exact .inl (List.eq_of_mem_replicate he)
/-- `BusyLastsStepsPerBlock`: no turn yet, and all of them. -/
theorem witness_BusyLasts : (started 64).phase = .init ∧ (started 64).q = 0 ∧ engineTurns [] ≤ (started 64).lanes.stepsPerBlock ∧
    engineTurns (List.replicate 22 .engine) = (started 64).lanes.stepsPerBlock := by decide
/-- `EachElementHasOnlyItsWriters`: each element changes in some step. -/
theorem witness_EachElement :
    nextHas (.keyb 1) State.reset (fun t => t.key ≠ State.reset.key ∧ t.keyCnt ≠ State.reset.keyCnt) = true ∧
    nextHas (.nonceb 1) State.reset (fun t => t.nonce ≠ State.reset.nonce ∧ t.nonceCnt ≠ State.reset.nonceCnt) = true ∧
    nextHas (.din 15 1) ready (fun t => t.din ≠ ready.din) = true ∧
    nextHas (.go 64) ready (fun t => t.blen ≠ ready.blen) = true ∧
    nextHas .efinal { last xT1 64 with ctr := 0xFFFFFFFF } (fun t => t.ctrOvf ∧ t.valid ∧ t.x = zeros16 ∧ t.dout ≠ zeros16) = true ∧
    nextHas (.setctr 1) { ready with ctrOvf := true } (fun t => !t.ctrOvf && t.ctr ≠ ready.ctr) = true ∧
    nextHas (.go 1) ready (fun t => t.phase ≠ ready.phase) = true ∧
    nextHas .einit (started 64) (fun t => t.x ≠ zeros16) = true ∧ nextHas .rdctr ready (fun t => t.reads ≠ []) = true ∧
    nextHas (.eqr 0) (rounds .one 64) (fun t => t.q ≠ 0) = true := by decide
/-- `StepKeepsTheInvariants`. -/
theorem witness_StepKeeps : CoreInv State.reset ∧ step State.reset = .next State.reset := ⟨inv_reset, rfl⟩
/-- `PhaseTransitions`: each of the transitions. -/
theorem witness_PhaseTransitions : nextHas (.go 1) ready (fun t => t.phase = .init) = true ∧
    nextHas .einit (started 64) (fun t => t.phase = .round) = true ∧
    nextHas (.eqr 76) { rounds .four 64 with q := 76 } (fun t => t.phase = .final) = true ∧
    nextHas .efinal (last xT1 64) (fun t => t.phase = .idle) = true ∧
    nextHas .clr (started 64) (fun t => t.phase = .idle) = true ∧
    nextHas (.keyb 0) (started 64) (fun t => t.phase = .idle) = true := by decide
/-- `BusyCoreKeepsItsInputs`: a busy core in which a write faults, and E.FINAL. -/
theorem witness_BusyCore : (started 64).phase ≠ .idle ∧ nextHas (.setctr 9) (started 64) (fun t => t.errcode = 5) = true ∧
    (last xT1 64).phase ≠ .idle ∧ nextHas .efinal (last xT1 64) (fun t => t.phase = .idle) = true := by decide
/-- `CounterChangesOnlyAtFinalAndHostWrites`: each of the three. -/
theorem witness_CounterChanges : nextHas .efinal (last xT1 64) (fun t => t.ctr ≠ (last xT1 64).ctr) = true ∧
    nextHas (.setctr 9) ready (fun t => t.ctr ≠ ready.ctr) = true ∧
    nextHas .clr { ready with ctr := 5 } (fun t => t.ctr ≠ 5) = true := by decide
/-- `SequencerReadsNoData`: two cores with other keys, counters and data. -/
theorem witness_Sequencer : (started 64).phase = { started 1 with ctr := 9, din := xT1 }.phase ∧
    (started 64).q = { started 1 with ctr := 9, din := xT1 }.q ∧
    (started 64).lanes = { started 1 with ctr := 9, din := xT1 }.lanes ∧
    ((after (engineTurn (started 64))).map fun t => t.phase) = some .round := by decide
/-- `StepsKeepTheParameter`. -/
theorem witness_Parameter : nextHas .nop ready (fun _ => true) = true ∧
    step { ready with script := [.engine] } = .next ready := ⟨by decide, rfl⟩

end Sys2Proof.Tests
end

/-! PROOFS. The family of 00_scope.md: a step runs the instruction it decodes, what the Host reads is independent of the
secret state, and no step changes the parameter. -/

namespace Sys2Proof.Machine

/-! ### The Engine's turn and the step, by their decoded word (R97, R129) -/

/-- A turn of a busy Engine runs the instruction of its control word. -/
theorem engineTurn_of_decode {s : State} {i : Instr} (hp : s.phase ≠ .idle)
    (h : decode s.lanes (.ew (engineWord s)) = .ok i) : engineTurn s = exec i s := by
  have hd : decodeEw s.lanes (engineWord s) = .ok i := h
  rw [engineTurn, if_neg hp, hd]

/-- A control word that is no instruction is refused (log 5). -/
theorem engineTurn_of_reject {s : State} {e : DecodeReject} (hp : s.phase ≠ .idle)
    (h : decode s.lanes (.ew (engineWord s)) = .error e) : engineTurn s = .refused .reservedEngineWord := by
  have hd : decodeEw s.lanes (engineWord s) = .error e := h
  rw [engineTurn, if_neg hp, hd]

/-- A turn that answers a next state is idle or runs one instruction. -/
theorem engineTurn_cases {s t : State} (h : engineTurn s = .next t) : t = s ∨ ∃ i, exec i s = .next t := by
  by_cases hp : s.phase = .idle
  · rw [engineTurn_idle hp] at h
    injection h with h
    exact .inl h.symm
  · cases hd : decode s.lanes (.ew (engineWord s)) with
    | ok i => exact .inr ⟨i, (engineTurn_of_decode hp hd).symm.trans h⟩
    | error e =>
      rw [engineTurn_of_reject hp hd] at h
      cases h

/-- Writing its own script back into a state changes nothing. -/
theorem withScript_self {s : State} {es : List Event} (h : s.script = es) : { s with script := es } = s := by
  subst h; rfl

/-- The Engine has its turn when the script says so and at the script's end (R71, log 2). -/
theorem step_engineTurn {s : State} {rest : List Event}
    (h : s.script = .engine :: rest ∨ s.script = [] ∧ rest = []) : step s = engineTurn { s with script := rest } := by
  rcases h with h | ⟨h, rfl⟩
  · exact step_engine h
  · rw [withScript_self h]
    exact step_empty h

/-- Settles O7: each clause is the rule of its event, the Engine's turn split by its control word. -/
theorem stepRunsTheDecodedInstruction : Obligations.StepRunsTheDecodedInstruction := by
  unfold Obligations.StepRunsTheDecodedInstruction
  refine ⟨fun s t rest h => step_access h, fun s rest h hp => ⟨fun i hd => ?_, fun e hd => ?_⟩,
    fun s rest h hp => ?_, fun s rest h => step_reset h⟩
  · exact (step_engineTurn h).trans (engineTurn_of_decode hp hd)
  · exact (step_engineTurn h).trans (engineTurn_of_reject hp hd)
  · exact (step_engineTurn h).trans (engineTurn_idle hp)

/-! ### What the window shows (R40, R41, R62) -/

/-- `BUSY` depends only on whether `PHASE` is IDLE. -/
theorem busy_congr {s t : State} (h : t.phase = .idle ↔ s.phase = .idle) : t.busy = s.busy := by
  simp [State.busy, bne, Bool.beq_eq_decide_eq, h]

/-- `STATUS` is determined by its five fields. -/
theorem statusWord_congr {s t : State} (hbusy : t.busy = s.busy) (hvalid : t.valid = s.valid)
    (herr : t.errcode = s.errcode) (hovf : t.ctrOvf = s.ctrOvf) : statusWord t = statusWord s := by
  simp only [statusWord, State.err, hbusy, hvalid, herr, hovf]

/-- `LENS` is determined by its three fields. -/
theorem lensWord_congr {s t : State} (hkey : t.keyCnt = s.keyCnt) (hnonce : t.nonceCnt = s.nonceCnt)
    (hblen : t.blen = s.blen) : lensWord t = lensWord s := by
  simp only [lensWord, hkey, hnonce, hblen]

/-- Every read is determined by `STATUS`, `LENS`, `CTR`, `DIN` and `DOUT`. -/
theorem windowRead_congr {s t : State} (hstatus : statusWord t = statusWord s) (hlens : lensWord t = lensWord s)
    (hctr : t.ctr = s.ctr) (hdin : t.din = s.din) (hdout : t.dout = s.dout) (widx : BitVec 7) :
    windowRead t widx = windowRead s widx := by
  simp only [windowRead, hstatus, hlens, hctr, hdin, hdout]

/-- Settles O15: of what is replaced, only `PHASE` shows in a readable register, and there only as `BUSY`. -/
theorem readsRevealNoSecret : Obligations.ReadsRevealNoSecret := by
  unfold Obligations.ReadsRevealNoSecret
  intro s k n x p q widx hp
  have hstatus : statusWord { s with key := k, nonce := n, x := x, phase := p, q := q } = statusWord s :=
    statusWord_congr (busy_congr hp) rfl rfl rfl
  exact windowRead_congr hstatus (lensWord_congr rfl rfl rfl) rfl rfl rfl widx

/-! ### The fields no instruction writes -/

@[simp] theorem putKeyByte_lanes (b : Byte) (s : State) : (putKeyByte b s).lanes = s.lanes := by
  unfold putKeyByte; split <;> rfl
@[simp] theorem putKeyByte_script (b : Byte) (s : State) : (putKeyByte b s).script = s.script := by
  unfold putKeyByte; split <;> rfl
@[simp] theorem putNonceByte_lanes (b : Byte) (s : State) : (putNonceByte b s).lanes = s.lanes := by
  unfold putNonceByte; split <;> rfl
@[simp] theorem putNonceByte_script (b : Byte) (s : State) : (putNonceByte b s).script = s.script := by
  unfold putNonceByte; split <;> rfl

/-- An instruction keeps `QR_LANES` and the script. -/
theorem exec_keeps_lanes_script {i : Instr} {s t : State} (h : exec i s = .next t) :
    t.lanes = s.lanes ∧ t.script = s.script := by
  rcases exec_cases h with rfl | ⟨-, v, rfl⟩ | ⟨-, rfl⟩ | ⟨-, -, f, rfl⟩ |
    ⟨-, -, ⟨b, -, rfl⟩ | ⟨b, -, rfl⟩ | ⟨w, -, rfl⟩ | ⟨k, w, -, rfl⟩ | ⟨-, -, -, rfl⟩ | ⟨n, -, -, -, -, -, -, rfl⟩⟩ |
    ⟨-, -, rfl⟩ | ⟨-, -, -, -, rfl⟩ | ⟨-, -, rfl⟩
  all_goals simp

/-- The Engine's turn keeps `QR_LANES` and the script. -/
theorem engineTurn_keeps_lanes_script {s t : State} (h : engineTurn s = .next t) :
    t.lanes = s.lanes ∧ t.script = s.script := by
  rcases engineTurn_cases h with rfl | ⟨i, hi⟩
  · exact ⟨rfl, rfl⟩
  · exact exec_keeps_lanes_script hi

/-- A step keeps `QR_LANES` and takes at most the script's head. -/
theorem step_keeps_lanes_script_tail {s t : State} (h : step s = .next t) :
    t.lanes = s.lanes ∧ t.script = s.script.tail := by
  cases hs : s.script with
  | nil =>
    obtain ⟨hlanes, hscript⟩ := engineTurn_keeps_lanes_script ((step_empty hs).symm.trans h)
    exact ⟨hlanes, hscript.trans hs⟩
  | cons e rest =>
    cases e with
    | access w => exact exec_keeps_lanes_script ((step_access hs).symm.trans h)
    | engine => exact engineTurn_keeps_lanes_script ((step_engine hs).symm.trans h)
    | reset =>
      rw [step_reset hs] at h
      injection h with h
      subst h
      simp

/-- Settles O58, by the cases of an instruction and of the script's head. -/
theorem stepsKeepTheParameter : Obligations.StepsKeepTheParameter := by
  unfold Obligations.StepsKeepTheParameter
  exact ⟨fun i s t h => exec_keeps_lanes_script h, fun s t h => step_keeps_lanes_script_tail h⟩

end Sys2Proof.Machine

/-! PROOFS. The family of 10_state.md: what Reset and CLR leave, the writers of each element, the transitions of `PHASE`,
the invariants of R45 at Reset, over a step and along every run. -/

namespace Sys2Proof.Machine

/-! ### The instructions whose updates are conditional, and the codes of the faults -/

/-- Every fault has a code of R220 other than 0. -/
@[simp] theorem FaultCode.code_ne_zero (f : FaultCode) : f.code ≠ 0#4 := by cases f <;> decide

@[inherit_doc FaultCode.code_ne_zero] theorem FaultCode.code_le (f : FaultCode) : f.code.toNat ≤ 5 := by
  cases f <;> decide

/-- `KEYB` writes `KEY` and `KEY_CNT` only (R186). -/
theorem putKeyByte_frame (b : Byte) (s : State) : ∃ k c, putKeyByte b s = { s with key := k, keyCnt := c } := by
  unfold putKeyByte
  split
  · exact ⟨_, _, rfl⟩
  · exact ⟨s.key, _, rfl⟩

/-- `NONCEB` writes `NONCE` and `NONCE_CNT` only (R187). -/
theorem putNonceByte_frame (b : Byte) (s : State) : ∃ k c, putNonceByte b s = { s with nonce := k, nonceCnt := c } := by
  unfold putNonceByte
  split
  · exact ⟨_, _, rfl⟩
  · exact ⟨s.nonce, _, rfl⟩

/-- A read answers a reply, in every state (R69). -/
theorem exec_read {i : Instr} (h : i.format = .rd) (s : State) : ∃ v, exec i s = .next (s.reply v) := by
  cases i with
  | rdstat | rdlens | rdctr | rddin _ | rddout _ | rdzero _ => exact ⟨_, rfl⟩
  | keyb _ | nonceb _ | setctr _ | din _ _ | wrign _ _ | nop | go _ | clr | illcmd _ | einit | eqr _ | efinal => cases h

/-- What raises a fault is a write or a command (R220). -/
theorem format_of_exec_raiseFault {i : Instr} {s : State} {f : FaultCode} (h : exec i s = .next (s.raiseFault f))
    (hfmt : i.format ≠ .eng) (h0 : s.errcode = 0) : i.format = .wr ∨ i.format = .cmd := by
  cases hf : i.format with
  | rd =>
    obtain ⟨v, hv⟩ := exec_read hf s
    have hst : s.reply v = s.raiseFault f := by injection hv.symm.trans h
    have herr : s.errcode = f.code := congrArg State.errcode hst
    exact absurd (herr.symm.trans h0) f.code_ne_zero
  | wr => exact .inl rfl
  | cmd => exact .inr rfl
  | eng => exact absurd hf hfmt

/-! ### Reset and CLR (R44, R202, R250) -/

theorem clearAll_atReset (s : State) : s.clearAll.atReset := by
  simp [State.atReset, zeros16]

theorem sameInputs_clearAll (s : State) : s.sameInputs s.clearAll := ⟨rfl, rfl, rfl⟩

/-- Settles O9: Reset and CLR both answer `clearAll`, which holds the table of R44; so does the state after Reset, which
`clearAll` leaves as it is. -/
theorem resetAndClrGiveTheResetState : Obligations.ResetAndClrGiveTheResetState := by
  unfold Obligations.ResetAndClrGiveTheResetState
  exact ⟨clearAll_atReset State.reset, by decide, fun s => ⟨_, rfl, clearAll_atReset s, sameInputs_clearAll s⟩,
    fun s rest h => ⟨_, step_reset h, clearAll_atReset _, sameInputs_clearAll _⟩⟩

/-! ### The writers of each element (R20) -/

/-- Settles O50: in each case of `exec_cases` the fields that differ are those the case's update names. -/
theorem eachElementHasOnlyItsWriters : Obligations.EachElementHasOnlyItsWriters := by
  unfold Obligations.EachElementHasOnlyItsWriters
  intro i s t h hclr
  rcases exec_cases h with rfl | ⟨hrd, v, rfl⟩ | ⟨rfl, -⟩ | ⟨hfmt, h0, f, rfl⟩ |
    ⟨-, -, ⟨b, rfl, rfl⟩ | ⟨b, rfl, rfl⟩ | ⟨w, rfl, rfl⟩ | ⟨k, w, rfl, rfl⟩ | ⟨rfl, -, -, rfl⟩ |
      ⟨n, rfl, -, -, -, -, -, rfl⟩⟩ |
    ⟨rfl, -, rfl⟩ | ⟨rfl, -, -, -, rfl⟩ | ⟨rfl, -, rfl⟩
  · simp
  · simp [hrd]
  · exact absurd rfl hclr
  · have hwrite := format_of_exec_raiseFault h hfmt h0
    simp [h0, hwrite]
  · obtain ⟨k, c, hput⟩ := putKeyByte_frame b s
    simp [hput]
  · obtain ⟨k, c, hput⟩ := putNonceByte_frame b s
    simp [hput]
  · simp
  · simp
  · simp
  · simp
  · simp [Instr.format]
  · simp [Instr.format]
  · simp [Instr.format]

/-! ### The transitions of `PHASE` (R36) -/

/-- Settles O54: only GO, the Engine's steps, a fault and CLR write `PHASE`. -/
theorem phaseTransitions : Obligations.PhaseTransitions := by
  unfold Obligations.PhaseTransitions
  intro i s t h
  rcases exec_cases h with rfl | ⟨-, v, rfl⟩ | ⟨rfl, rfl⟩ | ⟨-, h0, f, rfl⟩ |
    ⟨-, hp, ⟨b, -, rfl⟩ | ⟨b, -, rfl⟩ | ⟨w, -, rfl⟩ | ⟨k, w, -, rfl⟩ | ⟨-, -, -, rfl⟩ | ⟨n, rfl, hne, -, -, -, -, rfl⟩⟩ |
    ⟨rfl, hp, rfl⟩ | ⟨rfl, hp, -, -, rfl⟩ | ⟨rfl, hp, rfl⟩
  · exact .inl rfl
  · exact .inl rfl
  · simp
  · simp [h0]
  · obtain ⟨k, c, hput⟩ := putKeyByte_frame b s
    simp [hput]
  · obtain ⟨k, c, hput⟩ := putNonceByte_frame b s
    simp [hput]
  · exact .inl rfl
  · exact .inl rfl
  · exact .inl rfl
  · exact .inr (.inl ⟨hp, rfl, n, rfl, by bv_omega, rfl⟩)
  · exact .inr (.inr (.inl ⟨hp, rfl, rfl⟩))
  · by_cases hlast : s.q + BitVec.ofNat 7 s.lanes.count = 80
    · exact .inr (.inr (.inr (.inl ⟨hp, if_pos hlast, rfl⟩)))
    · exact .inl ((if_neg hlast).trans hp.symm)
  · exact .inr (.inr (.inr (.inr (.inl ⟨hp, rfl, rfl⟩))))

/-! ### Files of bytes (R66, R67, R150) -/

/-- Replacing byte `c` keeps the bytes beyond it zero. -/
theorem fileByte_putFileByte_beyond {n : Nat} {v : Vector Word n} {c : Nat} (hzero : ∀ p, c ≤ p → fileByte v p = 0)
    (b : Byte) {p : Nat} (hp : c < p) : fileByte (putFileByte v c b) p = 0 := by
  by_cases hin : p / 4 < n
  · rw [fileByte_putFileByte _ _ hin, if_neg (Nat.ne_of_gt hp)]
    exact hzero p hp.le
  · exact fileByte_of_ge _ (Nat.le_of_not_lt hin)

/-- The bytes of a mask (R150). -/
theorem wordByte_mask (n i : Nat) {j : Nat} (hj : j < 4) : wordByte (mask n i) j = maskByte n (4 * i + j) := by
  rw [mask, wordByte_joinBytes _ _ _ _ hj]
  interval_cases j <;> rfl

/-- The output of a block is zero from byte `BLEN` on (R155). -/
theorem fileByte_outputWords_beyond (din o : Words16) {n p : Nat} (hp : n ≤ p) : fileByte (outputWords din o n) p = 0 := by
  by_cases hin : p / 4 < 16
  · have hpos : 4 * (p / 4) + p % 4 = p := Nat.div_add_mod p 4
    have hmask : wordByte (mask n (p / 4)) (p % 4) = 0 := by
      rw [wordByte_mask _ _ (Nat.mod_lt p (by decide)), hpos, maskByte, if_neg (Nat.not_lt.mpr hp)]
    rw [fileByte_of_lt _ hin, outputWords, Vector.getElem_ofFn, wordByte_and, hmask]
    exact BitVec.and_zero
  · exact fileByte_of_ge _ (Nat.le_of_not_lt hin)

/-! ### What each update keeps of the invariants (R45) -/

theorem coreInv_clearAll (s : State) : CoreInv s.clearAll := by
  constructor
  case key_beyond => exact fun p _ => fileByte_replicate_zero 8 p
  case nonce_beyond => exact fun p _ => fileByte_replicate_zero 3 p
  all_goals simp

section
variable {s : State}

/-- No invariant speaks of the script. -/
theorem CoreInv.withScript (h : CoreInv s) (es : List Event) : CoreInv { s with script := es } := { h with }

/-- No invariant speaks of the record of reads. -/
theorem CoreInv.reply (h : CoreInv s) (v : Word) : CoreInv (s.reply v) := { h with }

/-- The fault entry clears all that a fault must leave clear. -/
theorem CoreInv.raiseFault (h : CoreInv s) (f : FaultCode) : CoreInv (s.raiseFault f) :=
  { h with
    errcode_le := f.code_le
    q_le := by simp
    idle_clean := by simp
    init_clean := by simp
    round_q := by simp
    final_q := by simp
    busy_clean := by simp
    fault_clean := by simp
    valid_idle := by simp
    invalid_zero := by simp
    dout_beyond := by simp }

theorem CoreInv.putKeyByte (h : CoreInv s) (hidle : s.phase = .idle) (b : Byte) : CoreInv (putKeyByte b s) := by
  unfold Machine.putKeyByte
  split
  next hlt =>
    have hcnt : (s.keyCnt + 1).toNat = s.keyCnt.toNat + 1 := by bv_omega
    exact { h with
      keyCnt_le := hcnt.trans_le (by omega)
      busy_clean := absurd hidle
      key_beyond := fun p hp => fileByte_putFileByte_beyond h.key_beyond b (hcnt.symm.trans_le hp) }
  next =>
    exact { h with
      keyCnt_le := le_refl 33
      busy_clean := absurd hidle
      key_beyond := fun p hp => fileByte_of_ge _ (by have : 33 ≤ p := hp; omega) }

theorem CoreInv.putNonceByte (h : CoreInv s) (hidle : s.phase = .idle) (b : Byte) : CoreInv (putNonceByte b s) := by
  unfold Machine.putNonceByte
  split
  next hlt =>
    have hcnt : (s.nonceCnt + 1).toNat = s.nonceCnt.toNat + 1 := by bv_omega
    exact { h with
      nonceCnt_le := hcnt.trans_le (by omega)
      busy_clean := absurd hidle
      nonce_beyond := fun p hp => fileByte_putFileByte_beyond h.nonce_beyond b (hcnt.symm.trans_le hp) }
  next =>
    exact { h with
      nonceCnt_le := le_refl 13
      busy_clean := absurd hidle
      nonce_beyond := fun p hp => fileByte_of_ge _ (by have : 13 ≤ p := hp; omega) }

theorem CoreInv.putCounter (h : CoreInv s) (hidle : s.phase = .idle) (w : Word) : CoreInv (putCounter w s) :=
  { h with busy_clean := absurd hidle }

/-- No invariant speaks of `DIN`. -/
theorem CoreInv.putDataWord (h : CoreInv s) (k : Fin 16) (w : Word) : CoreInv (putDataWord k w s) := { h with }

/-- `GO 0` completes at once (R201). -/
theorem CoreInv.emptyBlock (h : CoreInv s) (hidle : s.phase = .idle) (herr : s.errcode = 0) :
    CoreInv { s with blen := 0, dout := zeros16, valid := true } :=
  { h with
    blen_le := by simp
    busy_clean := absurd hidle
    fault_clean := absurd herr
    valid_idle := fun _ => ⟨hidle, herr⟩
    invalid_zero := fun _ => rfl
    dout_beyond := fun p _ => fileByte_zeros16 p }

/-- `GO n` with all its conditions met starts a block (R201). -/
theorem CoreInv.startedBlock (h : CoreInv s) (hidle : s.phase = .idle) (herr : s.errcode = 0) (hkey : s.keyCnt = 32)
    (hnonce : s.nonceCnt = 12) (hovf : s.ctrOvf = false) {n : BitVec 7} (hpos : 1 ≤ n.toNat) (hle : n.toNat ≤ 64) :
    CoreInv { s with blen := n, dout := zeros16, valid := false, q := 0, phase := .init } :=
  { h with
    blen_le := hle
    q_le := by simp
    idle_clean := by simp
    init_clean := fun _ => ⟨rfl, (h.idle_clean hidle).2⟩
    round_q := by simp
    final_q := by simp
    busy_clean := fun _ => ⟨herr, rfl, hovf, hkey, hnonce, hpos, hle, rfl⟩
    fault_clean := absurd herr
    valid_idle := by simp
    invalid_zero := fun _ => rfl
    dout_beyond := fun p _ => fileByte_zeros16 p }

/-- What holds while a block runs stays when only `PHASE`, `Q` and `X` move on to the rounds or to the last step. -/
theorem CoreInv.advance (h : CoreInv s) (hbusy : s.phase ≠ .idle) {x : Words16} {p : Phase} {q : BitVec 7}
    (hround : p = .round → q.toNat < 80 ∧ q.toNat % s.lanes.count = 0) (hfinal : p = .final → q = 80)
    (hp : p = .round ∨ p = .final) : CoreInv { s with x := x, q := q, phase := p } := by
  obtain ⟨herr, hvalid, hrest⟩ := h.busy_clean hbusy
  exact { h with
    q_le := by
      rcases hp with hp | hp
      · exact (hround hp).1.le
      · simp [hfinal hp]
    idle_clean := by rcases hp with rfl | rfl <;> simp
    init_clean := by rcases hp with rfl | rfl <;> simp
    round_q := hround
    final_q := hfinal
    busy_clean := fun _ => ⟨herr, hvalid, hrest⟩
    fault_clean := absurd herr
    valid_idle := by simp [hvalid] }

theorem CoreInv.loadMatrix (h : CoreInv s) (hinit : s.phase = .init) : CoreInv (loadMatrix s) :=
  h.advance (by simp [hinit]) (by simp) (by simp) (.inl rfl)

/-- `Q` moves on by a multiple of `QR_LANES`, which divides 80, so it does not pass 80 (R128). -/
theorem q_add_count_le_and_multiple {L : Lanes} {q : Nat} (hlt : q < 80) (hmul : q % L.count = 0) :
    q + L.count ≤ 80 ∧ (q + L.count) % L.count = 0 := by
  cases L <;> simp only [Lanes.count] at hmul ⊢ <;> omega

theorem CoreInv.roundStep (h : CoreInv s) (hround : s.phase = .round) : CoreInv (roundStep s) := by
  obtain ⟨hlt, hmul⟩ := h.round_q hround
  obtain ⟨hle, hnext⟩ := q_add_count_le_and_multiple hlt hmul
  have hq : (s.q + BitVec.ofNat 7 s.lanes.count).toNat = s.q.toNat + s.lanes.count := by
    rw [BitVec.toNat_add, BitVec.toNat_ofNat]; omega
  refine h.advance (by simp [hround]) ?_ ?_ ?_
  · intro hp
    have hne : s.q + BitVec.ofNat 7 s.lanes.count ≠ 80 := fun he => by simp [he] at hp
    have hne' : (s.q + BitVec.ofNat 7 s.lanes.count).toNat ≠ 80 := fun he => hne (BitVec.eq_of_toNat_eq he)
    exact ⟨by omega, by rw [hq]; exact hnext⟩
  · intro hp
    by_contra hne
    rw [if_neg hne] at hp
    cases hp
  · exact (ite_eq_or_eq _ _ _).symm

/-- `E.FINAL` leaves an idle core with a valid result of `BLEN` bytes (R155). -/
theorem CoreInv.finishBlock (h : CoreInv s) (hfinal : s.phase = .final) : CoreInv (finishBlock s) := by
  obtain ⟨herr, -⟩ := h.busy_clean (by simp [hfinal])
  exact { h with
    q_le := by simp
    idle_clean := by simp
    init_clean := by simp
    round_q := by simp
    final_q := by simp
    busy_clean := by simp
    fault_clean := absurd herr
    valid_idle := fun _ => ⟨rfl, herr⟩
    invalid_zero := by simp
    dout_beyond := fun p hp => fileByte_outputWords_beyond _ _ hp }

end

/-! ### The invariants at Reset, over a step, along a run (R45) -/

/-- Settles O51: the reset values are those `clearAll` gives. -/
theorem resetMeetsTheInvariants : Obligations.ResetMeetsTheInvariants := by
  unfold Obligations.ResetMeetsTheInvariants
  exact fun L es => coreInv_clearAll { State.reset with lanes := L, script := es }

/-- Every instruction keeps the invariants. -/
theorem exec_keeps_coreInv {i : Instr} {s t : State} (hs : CoreInv s) (h : exec i s = .next t) : CoreInv t := by
  rcases exec_cases h with rfl | ⟨-, v, rfl⟩ | ⟨-, rfl⟩ | ⟨-, -, f, rfl⟩ |
    ⟨h0, hp, ⟨b, -, rfl⟩ | ⟨b, -, rfl⟩ | ⟨w, -, rfl⟩ | ⟨k, w, -, rfl⟩ | ⟨-, -, -, rfl⟩ |
      ⟨n, -, hne, h64, hk, hn, hovf, rfl⟩⟩ |
    ⟨-, hp, rfl⟩ | ⟨-, hp, -, -, rfl⟩ | ⟨-, hp, rfl⟩
  · exact hs
  · exact hs.reply v
  · exact coreInv_clearAll s
  · exact hs.raiseFault f
  · exact hs.putKeyByte hp b
  · exact hs.putNonceByte hp b
  · exact hs.putCounter hp w
  · exact hs.putDataWord k w
  · exact hs.emptyBlock hp h0
  · exact hs.startedBlock hp h0 hk hn hovf (by bv_omega) h64
  · exact hs.loadMatrix hp
  · exact hs.roundStep hp
  · exact hs.finishBlock hp

/-- All that a step can do once its event is off the script: nothing, Reset, or one instruction (R6, R71). -/
theorem step_cases {s t : State} (h : step s = .next t) : ∃ rest,
    t = { s with script := rest } ∨ t = { s with script := rest }.clearAll ∨
      ∃ i, exec i { s with script := rest } = .next t := by
  cases hs : s.script with
  | nil =>
    rw [step_engineTurn (.inr ⟨hs, rfl⟩)] at h
    exact ⟨_, (engineTurn_cases h).imp_right .inr⟩
  | cons e rest =>
    cases e with
    | access w => exact ⟨rest, .inr (.inr ⟨_, (step_access hs).symm.trans h⟩)⟩
    | engine => exact ⟨rest, (engineTurn_cases ((step_engine hs).symm.trans h)).imp_right .inr⟩
    | reset =>
      rw [step_reset hs] at h
      injection h with h
      exact ⟨rest, .inr (.inl h.symm)⟩

/-- Settles O52, by what a step can do. -/
theorem stepKeepsTheInvariants : Obligations.StepKeepsTheInvariants := by
  unfold Obligations.StepKeepsTheInvariants
  intro s t hs h
  obtain ⟨rest, rfl | rfl | ⟨i, hi⟩⟩ := step_cases h
  · exact hs.withScript rest
  · exact coreInv_clearAll _
  · exact exec_keeps_coreInv (hs.withScript rest) hi

/-- Where the invariants hold, the Engine's turn is not refused (R97, R129). -/
theorem engineTurn_next_of_coreInv {s : State} (hs : CoreInv s) : ∃ t, engineTurn s = .next t := by
  cases hp : s.phase with
  | idle => exact ⟨_, engineTurn_idle hp⟩
  | init => exact ⟨_, engineTurn_init hp (hs.init_clean hp).1⟩
  | round =>
    obtain ⟨hlt, hmul⟩ := hs.round_q hp
    exact ⟨_, engineTurn_round hp hlt (beq_iff_eq.mpr hmul)⟩
  | final => exact ⟨_, engineTurn_final hp (hs.final_q hp)⟩

/-- Where the invariants hold, the machine does not stop. -/
theorem step_next_of_coreInv {s : State} (hs : CoreInv s) : ∃ t, step s = .next t := by
  cases hscript : s.script with
  | nil => exact step_empty hscript ▸ engineTurn_next_of_coreInv hs
  | cons e rest =>
    cases e with
    | access w => exact step_access hscript ▸ exec_host_next _ _ (decodeTw_format w)
    | engine => exact step_engine hscript ▸ engineTurn_next_of_coreInv (hs.withScript rest)
    | reset => exact ⟨_, step_reset hscript⟩

/-- A run from a state that meets the invariants goes on for any number of steps and keeps them. -/
theorem runSteps_next_of_coreInv (n : Nat) {s : State} (hs : CoreInv s) : ∃ t, runSteps n s = .next t ∧ CoreInv t := by
  induction n generalizing s with
  | zero => exact ⟨s, runSteps_zero s, hs⟩
  | succ n ih =>
    obtain ⟨t, ht⟩ := step_next_of_coreInv hs
    rw [runSteps_of_step ht]
    exact ih (stepKeepsTheInvariants s t hs ht)

/-- Settles O53, from O51 and the run lemma. -/
theorem reachableStatesMeetTheInvariants : Obligations.ReachableStatesMeetTheInvariants := by
  unfold Obligations.ReachableStatesMeetTheInvariants
  exact fun L es n => runSteps_next_of_coreInv n (resetMeetsTheInvariants L es)

end Sys2Proof.Machine

/-! PROOFS. The family of 20_memory.md: what a read of the window returns, and the bytes that the Host's pseudo-instructions
move into `KEY`, `NONCE` and `DIN` and out of `DOUT`. -/

namespace Sys2Proof.Machine

/-! ### Reads of the window (R62, R69, R191) -/

/-- The rows of format RD and the window's cases stand in the same order. -/
theorem exec_decodeRead (widx : BitVec 7) (s : State) :
    exec (decodeRead widx) s = .next (s.reply (windowRead s widx)) := by
  unfold decodeRead windowRead
  split_ifs <;> rfl

/-- Settles O11: a read access decodes by its index alone, and each read replies with its case of the window. -/
theorem readsReturnTheWindowAndChangeNothing : Obligations.ReadsReturnTheWindowAndChangeNothing := by
  unfold Obligations.ReadsReturnTheWindowAndChangeNothing
  intro widx v s
  rw [decodeTw_read]
  exact exec_decodeRead widx s

/-! ### The Host's accesses, performed (R101) -/

/-- A Host access whose word decodes back to its instruction is performed as that instruction. -/
theorem perform_eventOf_of_next {i : Instr} {t : Tw} {s u : State} (henc : encode i = .tw t) (hdec : decodeTw t = i)
    (h : exec i s = .next u) : perform (eventOf i) s = some u := by
  have hevent : eventOf i = .access t := by simp only [eventOf, henc]
  rw [hevent]
  exact perform_access_of_next (hdec.symm ▸ h)

/-- The byte of a byte port's word is the byte written (R94 (b)). -/
theorem low_byte_setWidth (b : Byte) : (b.setWidth 32).extractLsb' 0 8 = b := by
  ext k hk
  have h32 : k < 32 := by omega
  simp [hk, h32]

theorem perform_keyb (b : Byte) (s : State) : perform (eventOf (.keyb b)) s = some (gated (putKeyByte b) s) := by
  refine perform_eventOf_of_next rfl ?_ rfl
  simp [decodeTw_write, decodeWrite, low_byte_setWidth]

theorem perform_nonceb (b : Byte) (s : State) : perform (eventOf (.nonceb b)) s = some (gated (putNonceByte b) s) := by
  refine perform_eventOf_of_next rfl ?_ rfl
  simp [decodeTw_write, decodeWrite, low_byte_setWidth]

/-- The word indexes below 16 are those of bank 0 (R92). -/
theorem bankOf_eq_zero {k : BitVec 7} (hk : k.toNat < 16) : bankOf k = 0 := by
  revert k
  decide

/-- A register of another bank than 0 is none of the single registers (R62). -/
theorem bankIndex_ne_single {bank : BitVec 3} (h : bank ≠ 0) (i : Fin 16) {k : BitVec 7} (hk : k.toNat < 16) :
    bankIndex bank i ≠ k := by
  rintro rfl
  exact h ((bankOf_bankIndex bank i).symm.trans (bankOf_eq_zero hk))

theorem perform_din (i : Fin 16) (w : Word) (s : State) :
    perform (eventOf (.din i w)) s = some (gated (putDataWord i w) s) := by
  refine perform_eventOf_of_next rfl ?_ rfl
  have hsingle : ∀ k : BitVec 7, k.toNat < 16 → bankIndex 1 i ≠ k := fun _ => bankIndex_ne_single (by decide) i
  rw [decodeTw_write, if_neg (hsingle 0 (by decide)), decodeWrite, if_neg (hsingle 4 (by decide)),
    if_neg (hsingle 5 (by decide)), if_neg (hsingle 3 (by decide)), if_pos (bankOf_bankIndex 1 i), bankReg_bankIndex]

theorem perform_rddout (i : Fin 16) (s : State) : perform (eventOf (.rddout i)) s = some (s.reply s.dout[i]) := by
  refine perform_eventOf_of_next rfl ?_ rfl
  have hbank : bankOf (bankIndex 2 i) = 2 := bankOf_bankIndex 2 i
  have hsingle : ∀ k : BitVec 7, k.toNat < 16 → bankIndex 2 i ≠ k := fun _ => bankIndex_ne_single (by decide) i
  rw [readTw, decodeTw_read, decodeRead, if_neg (hsingle 1 (by decide)), if_neg (hsingle 2 (by decide)),
    if_neg (hsingle 3 (by decide)), hbank, if_neg (by decide), if_pos rfl, bankReg_bankIndex]

@[simp] theorem issue_singleton (i : Instr) (s : State) : issue [i] s = perform (eventOf i) s := by
  simp [issue, performAll]

/-- A list of instructions of one form takes a state `after []` to `after as`, where `after` says what state the
instructions issued so far have left. -/
theorem issue_map {α : Type} {f : α → Instr} {after : List α → State}
    (hstep : ∀ done a, perform (eventOf (f a)) (after done) = some (after (done ++ [a]))) (as : List α) :
    issue (as.map f) (after []) = some (after as) := by
  induction as using List.reverseRecOn with
  | nil => rfl
  | append_singleton done a ih =>
    rw [List.map_append, issue_append, ih, Option.bind_some, List.map_singleton, issue_singleton, hstep]

/-! ### Bytes delivered into a register file (R65, R67) -/

/-- A register file with the bytes `bs` put at the indexes `p`, `p + 1`, and so on; those beyond its end are dropped. -/
def putFileBytes {n : Nat} (v : Vector Word n) (p : Nat) : List Byte → Vector Word n
  | [] => v
  | b :: bs => putFileBytes (putFileByte v p b) (p + 1) bs

theorem putFileBytes_append {n : Nat} (v : Vector Word n) (p : Nat) (bs cs : List Byte) :
    putFileBytes v p (bs ++ cs) = putFileBytes (putFileBytes v p bs) (p + bs.length) cs := by
  induction bs generalizing v p with
  | nil => rfl
  | cons b bs ih =>
    rw [List.length_cons, Nat.add_comm bs.length 1, ← Nat.add_assoc]
    exact ih _ _

/-- Bytes delivered from index 0 on, one more. -/
theorem putFileBytes_concat {n : Nat} (v : Vector Word n) (bs : List Byte) (b : Byte) :
    putFileBytes v 0 (bs ++ [b]) = putFileByte (putFileBytes v 0 bs) bs.length b := by
  rw [putFileBytes_append, Nat.zero_add]
  rfl

/-- A byte beyond the end of the file is dropped. -/
theorem putFileBytes_concat_of_full {n : Nat} (v : Vector Word n) {bs : List Byte} (h : n ≤ bs.length / 4) (b : Byte) :
    putFileBytes v 0 (bs ++ [b]) = putFileBytes v 0 bs :=
  (putFileBytes_concat v bs b).trans (Vector.setIfInBounds_eq_of_size_le h)

/-- Every byte of the file after a delivery. -/
theorem fileByte_putFileBytes {n : Nat} (v : Vector Word n) (p : Nat) (bs : List Byte) {r : Nat} (hr : r / 4 < n) :
    fileByte (putFileBytes v p bs) r = if p ≤ r then bs.getD (r - p) (fileByte v r) else fileByte v r := by
  induction bs generalizing v p with
  | nil => simp [putFileBytes]
  | cons b bs ih =>
    rw [putFileBytes, ih, fileByte_putFileByte _ _ hr]
    rcases Nat.lt_trichotomy r p with hlt | rfl | hgt
    · rw [if_neg (by omega), if_neg (by omega), if_neg (by omega)]
    · simp
    · have hsub : r - p = r - (p + 1) + 1 := by omega
      rw [if_pos (by omega), if_neg (by omega), if_pos (by omega), hsub, List.getD_cons_succ]

/-- The bytes of a little-endian word (R8). -/
theorem wordByte_le32 (b : List Byte) (i : Nat) {j : Nat} (hj : j < 4) : wordByte (le32 b i) j = b.getD (i + j) 0 := by
  rw [le32, wordByte_joinBytes _ _ _ _ hj]
  interval_cases j <;> rfl

/-- The bytes of a file of little-endian words are those of the string it is read from (R65). -/
theorem fileByte_le32_words {n : Nat} (b : List Byte) {p : Nat} (hp : p / 4 < n) :
    fileByte (Vector.ofFn fun k : Fin n => le32 b (4 * k)) p = b.getD p 0 := by
  rw [fileByte_of_lt _ hp, Vector.getElem_ofFn, wordByte_le32 _ _ (Nat.mod_lt p (by decide)), Nat.div_add_mod]

/-- As many bytes as a file holds, delivered from index 0 on, are its little-endian words (R65 (a), (b)). -/
theorem putFileBytes_eq_le32_words {n : Nat} (v : Vector Word n) {bs : List Byte} (hlen : bs.length = 4 * n) :
    putFileBytes v 0 bs = Vector.ofFn fun k => le32 bs (4 * k) := by
  apply file_eq_of_bytes
  intro p hp
  have hlt : p < bs.length := by omega
  rw [fileByte_putFileBytes _ _ _ hp, if_pos p.zero_le, Nat.sub_zero, fileByte_le32_words _ hp,
    List.getD_eq_getElem _ _ hlt, List.getD_eq_getElem _ _ hlt]

/-! ### LOADKEY and LOADNONCE (R67, R101) -/

/-- The state after the key bytes `bs`, delivered from `KEY_CNT = 0` on. -/
def keyLoaded (s : State) (bs : List Byte) : State :=
  { s with key := putFileBytes s.key 0 bs, keyCnt := BitVec.ofNat 6 (min bs.length 33) }

/-- One more key byte: put at its index up to the 32nd, dropped and counted as 33 from then on. -/
theorem putKeyByte_keyLoaded (s : State) (bs : List Byte) (b : Byte) :
    putKeyByte b (keyLoaded s bs) = keyLoaded s (bs ++ [b]) := by
  have hcnt : (keyLoaded s bs).keyCnt.toNat = min bs.length 33 := by
    simp only [keyLoaded, BitVec.toNat_ofNat]
    omega
  rw [putKeyByte, hcnt]
  by_cases h : bs.length < 32
  · have hmin : min bs.length 33 = bs.length := by omega
    have hmin' : min (bs.length + 1) 33 = bs.length + 1 := by omega
    simp [keyLoaded, putFileBytes_concat, hmin, hmin', h, BitVec.ofNat_add]
  · have hmin : ¬ min bs.length 33 < 32 := by omega
    have hmin' : min (bs.length + 1) 33 = 33 := by omega
    have hdrop := putFileBytes_concat_of_full s.key (show _ ≤ bs.length / 4 by omega) b
    simp [keyLoaded, hdrop, hmin, hmin']

theorem issue_loadKey {s : State} (herr : s.errcode = 0) (hidle : s.phase = .idle) (hcnt : s.keyCnt = 0)
    (bs : List Byte) : issue (loadKey bs) s = some (keyLoaded s bs) := by
  have hstart : keyLoaded s [] = s := by
    show { s with keyCnt := 0 } = s
    rw [← hcnt]
  calc issue (loadKey bs) s = issue (bs.map .keyb) (keyLoaded s []) := by rw [hstart, loadKey]
    _ = some (keyLoaded s bs) := issue_map (fun done b => by
      rw [perform_keyb, gated_of_ready (s := keyLoaded s done) herr hidle, putKeyByte_keyLoaded]) bs

/-- The state after the nonce bytes `bs`, delivered from `NONCE_CNT = 0` on. -/
def nonceLoaded (s : State) (bs : List Byte) : State :=
  { s with nonce := putFileBytes s.nonce 0 bs, nonceCnt := BitVec.ofNat 4 (min bs.length 13) }

/-- One more nonce byte: put at its index up to the 12th, dropped and counted as 13 from then on. -/
theorem putNonceByte_nonceLoaded (s : State) (bs : List Byte) (b : Byte) :
    putNonceByte b (nonceLoaded s bs) = nonceLoaded s (bs ++ [b]) := by
  have hcnt : (nonceLoaded s bs).nonceCnt.toNat = min bs.length 13 := by
    simp only [nonceLoaded, BitVec.toNat_ofNat]
    omega
  rw [putNonceByte, hcnt]
  by_cases h : bs.length < 12
  · have hmin : min bs.length 13 = bs.length := by omega
    have hmin' : min (bs.length + 1) 13 = bs.length + 1 := by omega
    simp [nonceLoaded, putFileBytes_concat, hmin, hmin', h, BitVec.ofNat_add]
  · have hmin : ¬ min bs.length 13 < 12 := by omega
    have hmin' : min (bs.length + 1) 13 = 13 := by omega
    have hdrop := putFileBytes_concat_of_full s.nonce (show _ ≤ bs.length / 4 by omega) b
    simp [nonceLoaded, hdrop, hmin, hmin']

theorem issue_loadNonce {s : State} (herr : s.errcode = 0) (hidle : s.phase = .idle) (hcnt : s.nonceCnt = 0)
    (bs : List Byte) : issue (loadNonce bs) s = some (nonceLoaded s bs) := by
  have hstart : nonceLoaded s [] = s := by
    show { s with nonceCnt := 0 } = s
    rw [← hcnt]
  calc issue (loadNonce bs) s = issue (bs.map .nonceb) (nonceLoaded s []) := by rw [hstart, loadNonce]
    _ = some (nonceLoaded s bs) := issue_map (fun done b => by
      rw [perform_nonceb, gated_of_ready (s := nonceLoaded s done) herr hidle, putNonceByte_nonceLoaded]) bs

/-- Settles O18: a delivery puts the bytes into the file one after the other, and a file is known by its bytes. -/
theorem loadedBytesAssembleLittleEndian : Obligations.LoadedBytesAssembleLittleEndian := by
  unfold Obligations.LoadedBytesAssembleLittleEndian
  refine ⟨fun s bs herr hidle hcnt => ⟨putFileBytes s.key 0 bs, issue_loadKey herr hidle hcnt bs, fun p hp => ?_,
      putFileBytes_eq_le32_words s.key⟩,
    fun s bs herr hidle hcnt => ⟨putFileBytes s.nonce 0 bs, issue_loadNonce herr hidle hcnt bs, fun p hp => ?_,
      putFileBytes_eq_le32_words s.nonce⟩⟩
  · exact fileByte_putFileBytes s.key 0 bs (by omega)
  · exact fileByte_putFileBytes s.nonce 0 bs (by omega)

/-! ### LOADBLK (R66, R101) -/

/-- The registers of a block of `n` bytes, by position. -/
theorem blockRegs_getElem? {n k : Nat} (hn : k < (n + 3) / 4) (hk : k < 16) : (blockRegs n)[k]? = some ⟨k, hk⟩ := by
  simp [blockRegs, hn, hk]

theorem mem_blockRegs {n : Nat} {i : Fin 16} : i ∈ blockRegs n ↔ i.val < (n + 3) / 4 := by
  simp [blockRegs, List.mem_take_iff_getElem, Fin.ext_iff]

/-- `DIN` after the words of the block `p` have been written to the registers `regs`. -/
def blockWritten (din : Words16) (p : List Byte) (regs : List (Fin 16)) : Words16 :=
  Vector.ofFn fun i => if i ∈ regs then le32 p (4 * i) else din[i]

theorem blockWritten_getElem (din : Words16) (p : List Byte) (regs : List (Fin 16)) (i : Fin 16) :
    (blockWritten din p regs)[i] = if i ∈ regs then le32 p (4 * i) else din[i] := by
  simp [blockWritten]

/-- The bytes of the block, where its registers have been written. -/
theorem fileByte_blockWritten (din : Words16) {p : List Byte} (hlen : p.length ≤ 64) {k : Nat} (hk : k < p.length) :
    fileByte (blockWritten din p (blockRegs p.length)) k = p.getD k 0 := by
  have hfile : k / 4 < 16 := by omega
  have hmem : (⟨k / 4, hfile⟩ : Fin 16) ∈ blockRegs p.length := mem_blockRegs.mpr (show k / 4 < _ by omega)
  rw [fileByte_of_lt _ hfile, blockWritten, Vector.getElem_ofFn, if_pos hmem, wordByte_le32 _ _ (Nat.mod_lt k (by decide)),
    Nat.div_add_mod]

theorem blockWritten_concat (din : Words16) (p : List Byte) (regs : List (Fin 16)) (i : Fin 16) :
    (blockWritten din p regs).set i (le32 p (4 * i)) = blockWritten din p (regs ++ [i]) := by
  apply Vector.ext
  intro j hj
  by_cases h : i.val = j
  · subst h
    simp [blockWritten]
  · have hne : (⟨j, hj⟩ : Fin 16) ≠ i := fun e => h (congrArg Fin.val e).symm
    simp [blockWritten, h, hne]

theorem issue_loadBlk {s : State} (herr : s.errcode = 0) (hidle : s.phase = .idle) (p : List Byte) :
    issue (loadBlk p) s = some { s with din := blockWritten s.din p (blockRegs p.length) } := by
  have hstart : { s with din := blockWritten s.din p [] } = s := by simp [blockWritten]
  calc issue (loadBlk p) s = issue (loadBlk p) { s with din := blockWritten s.din p [] } := by rw [hstart]
    _ = some { s with din := blockWritten s.din p (blockRegs p.length) } :=
      issue_map (after := fun regs => { s with din := blockWritten s.din p regs }) (fun done i => by
        rw [perform_din, gated_of_ready (s := { s with din := blockWritten s.din p done }) herr hidle, putDataWord,
          blockWritten_concat]) (blockRegs p.length)

/-! ### READBLK (R66, R101) -/

theorem issue_readBlk (n : Nat) (s : State) :
    issue (readBlk n) s = some { s with reads := ((blockRegs n).map (s.dout[·])).reverse ++ s.reads } :=
  issue_map (after := fun regs => { s with reads := (regs.map (s.dout[·])).reverse ++ s.reads }) (fun done i => by
    rw [perform_rddout]
    simp [State.reply]) (blockRegs n)

/-- The bytes of a list of words, serialised little-endian: byte `p` is byte `p mod 4` of word `p / 4`. -/
theorem flatMap_bytesLe_getElem? (ws : List Word) (p : Nat) :
    (ws.flatMap bytesLe)[p]? = ws[p / 4]?.map (wordByte · (p % 4)) := by
  induction ws generalizing p with
  | nil => simp
  | cons w ws ih =>
    rw [List.flatMap_cons]
    by_cases h : p < 4
    · interval_cases p <;> rfl
    · obtain ⟨q, rfl⟩ : ∃ q, p = q + 4 := ⟨p - 4, by omega⟩
      have hdiv : (q + 4) / 4 = q / 4 + 1 := by omega
      rw [List.getElem?_append_right (by simp [bytesLe]), hdiv, List.getElem?_cons_succ, Nat.add_mod_right, ← ih]
      rfl

/-- The first `n` bytes of the words read back are the first `n` bytes of `DOUT`. -/
theorem readBlkBytes_blockRegs {n : Nat} (hn : n ≤ 64) (dout : Words16) :
    readBlkBytes n ((blockRegs n).map (dout[·])) = (List.range n).map (fileByte dout) := by
  apply List.ext_getElem?
  intro k
  by_cases hk : k < n
  · have hfile : k / 4 < 16 := by omega
    rw [readBlkBytes, List.getElem?_take_of_lt hk, flatMap_bytesLe_getElem?, List.getElem?_map,
      blockRegs_getElem? (by omega) hfile, List.getElem?_map, List.getElem?_range hk]
    simp [fileByte_of_lt _ hfile]
  · simp [readBlkBytes, hk]

/-- Settles O19: the words written and read are those of the first `(n + 3) / 4` registers, byte by byte. -/
theorem blockBytesPassLittleEndian : Obligations.BlockBytesPassLittleEndian := by
  unfold Obligations.BlockBytesPassLittleEndian
  refine ⟨fun s p herr hidle _ hlen => ⟨_, issue_loadBlk herr hidle p, fun k hk => fileByte_blockWritten s.din hlen hk,
      fun i hi => ?_⟩,
    fun s n _ hn => ⟨_, issue_readBlk n s, readBlkBytes_blockRegs hn s.dout⟩⟩
  have hbeyond : i ∉ blockRegs p.length := fun h => Nat.not_lt.mpr hi (mem_blockRegs.mp h)
  rw [blockWritten_getElem, if_neg hbeyond]

end Sys2Proof.Machine

/-! PROOFS. The family of 30_encoding.md: the decoder against the opcode table and the command word of R93, what a word
decodes to, and the encoder as the decoder's inverse. -/

namespace Sys2Proof

open Machine

/-! ### The catch-all rows and the checks of `Instr.wf` (R62, R92, R95) -/

/-- The readable registers are those with a row of format RD of their own. -/
theorem readableIndex_iff (widx : BitVec 7) : readableIndex widx = true ↔
    widx = 1 ∨ widx = 2 ∨ widx = 3 ∨ bankOf widx = 1 ∨ bankOf widx = 2 := by
  revert widx; decide

/-- The writable registers are `CTRL` and those with a row of format WR of their own. -/
theorem writableIndex_iff (widx : BitVec 7) : writableIndex widx = true ↔
    widx = 0 ∨ widx = 3 ∨ widx = 4 ∨ widx = 5 ∨ bankOf widx = 1 := by
  revert widx; decide

/-- The index of a register of `DIN` or `DOUT` decodes to an access of that register (R92). -/
theorem decodeRead_bankIndex_one (i : Fin 16) : decodeRead (bankIndex 1 i) = .rddin i := by
  revert i; decide

@[inherit_doc decodeRead_bankIndex_one]
theorem decodeRead_bankIndex_two (i : Fin 16) : decodeRead (bankIndex 2 i) = .rddout i := by
  revert i; decide

@[inherit_doc decodeRead_bankIndex_one]
theorem decodeWrite_bankIndex_one (i : Fin 16) (v : Word) : decodeWrite (bankIndex 1 i) v = .din i v := by
  have hsingle : ∀ k : BitVec 7, k.toNat < 16 → bankIndex 1 i ≠ k := fun _ => bankIndex_ne_single (by decide) i
  rw [decodeWrite, if_neg (hsingle 4 (by decide)), if_neg (hsingle 5 (by decide)), if_neg (hsingle 3 (by decide)),
    if_pos (bankOf_bankIndex 1 i), bankReg_bankIndex]

/-- WRIGN takes what no row of a writable register takes. -/
theorem decodeWrite_of_not_writable {widx : BitVec 7} (h : writableIndex widx = false) (v : Word) :
    decodeWrite widx v = .wrign widx v := by
  obtain ⟨-, h3, h4, h5, hbank⟩ : widx ≠ 0 ∧ widx ≠ 3 ∧ widx ≠ 4 ∧ widx ≠ 5 ∧ bankOf widx ≠ 1 := by
    simpa only [ne_eq, writableIndex_iff, not_or] using Bool.eq_false_iff.mp h
  rw [decodeWrite, if_neg h4, if_neg h5, if_neg h3, if_neg hbank]

/-! ### The command word (R93, R203) -/

/-- A GO word is neither NOP nor CLR, so the command rows may be tried in any order. -/
theorem goWord_ne_nop_clr {v : Word} (h : goWord v = true) : v ≠ 0 ∧ v ≠ 2 := by
  constructor <;> rintro rfl <;> exact absurd h (by decide)

theorem decodeCommand_of_goWord {v : Word} (h : goWord v = true) : decodeCommand v = .go (blenField v) := by
  rw [decodeCommand, if_neg (goWord_ne_nop_clr h).1, if_pos h]

/-- A command word is legal exactly when a row other than ILLCMD takes it. -/
theorem legalCommand_eq_false_iff (v : Word) : legalCommand v = false ↔ v ≠ 0 ∧ v ≠ 2 ∧ goWord v = false := by
  simp [legalCommand, and_assoc]

theorem decodeCommand_eq_nop_iff (v : Word) : decodeCommand v = .nop ↔ v = 0 := by
  unfold decodeCommand
  split_ifs with h0 hgo h2
  · exact iff_of_true rfl h0
  all_goals exact iff_of_false nofun h0

theorem decodeCommand_eq_clr_iff (v : Word) : decodeCommand v = .clr ↔ v = 2 := by
  unfold decodeCommand
  split_ifs with h0 hgo h2
  · exact iff_of_false nofun (h0 ▸ by decide)
  · exact iff_of_false nofun (goWord_ne_nop_clr hgo).2
  · exact iff_of_true rfl h2
  · exact iff_of_false nofun h2

theorem decodeCommand_eq_go_iff (v : Word) (n : BitVec 7) :
    decodeCommand v = .go n ↔ goWord v = true ∧ blenField v = n := by
  refine ⟨fun h => ?_, fun ⟨hgo, hn⟩ => hn ▸ decodeCommand_of_goWord hgo⟩
  unfold decodeCommand at h
  split_ifs at h with h0 hgo h2
  exact ⟨hgo, Instr.go.inj h⟩

theorem decodeCommand_eq_illcmd_iff (v w : Word) : decodeCommand v = .illcmd w ↔ w = v ∧ legalCommand v = false := by
  rw [legalCommand_eq_false_iff]
  unfold decodeCommand
  split_ifs with h0 hgo h2
  · exact iff_of_false nofun fun ⟨_, hne, _⟩ => hne h0
  · simp [hgo]
  · exact iff_of_false nofun fun ⟨_, _, hne, _⟩ => hne h2
  · rw [Bool.not_eq_true] at hgo
    exact ⟨fun h => ⟨(Instr.illcmd.inj h).symm, h0, h2, hgo⟩, fun ⟨hw, _⟩ => congrArg _ hw.symm⟩

theorem blenField_toNat (v : Word) : (blenField v).toNat = v.toNat / 256 % 128 := by
  simp [blenField, Nat.shiftRight_eq_div_pow]

/-- A GO word by arithmetic on the word (R93). -/
theorem goWord_iff (v : Word) : goWord v = true ↔
    v.toNat % 16 = 1 ∧ v.toNat / 16 % 16 = 0 ∧ v.toNat / 2 ^ 15 = 0 ∧ v.toNat / 256 % 128 ≤ 64 := by
  have hreserved : v.toNat / 2 ^ 15 % 2 ^ 17 = v.toNat / 2 ^ 15 := Nat.mod_eq_of_lt (by have := v.isLt; omega)
  have hop : v.extractLsb' 0 4 = 1 ↔ v.toNat % 16 = 1 := by
    rw [← BitVec.toNat_inj, BitVec.extractLsb'_toNat]; rfl
  have hlow : v.extractLsb' 4 4 = 0 ↔ v.toNat / 16 % 16 = 0 := by
    rw [← BitVec.toNat_inj, BitVec.extractLsb'_toNat, Nat.shiftRight_eq_div_pow]; rfl
  have hhigh : v.extractLsb' 15 17 = 0 ↔ v.toNat / 2 ^ 15 = 0 := by
    rw [← BitVec.toNat_inj, BitVec.extractLsb'_toNat, Nat.shiftRight_eq_div_pow, hreserved]; rfl
  have hblen : (v.extractLsb' 8 7).toNat = v.toNat / 256 % 128 := blenField_toNat v
  simp only [goWord, Bool.and_eq_true, beq_iff_eq, decide_eq_true_eq, hop, hlow, hhigh, hblen, and_assoc]

/-- Settles O5: each form's row by its own condition, GO words by arithmetic. -/
theorem commandWordsDecode : Obligations.CommandWordsDecode := by
  unfold Obligations.CommandWordsDecode
  intro v
  refine ⟨decodeCommand_eq_nop_iff v, decodeCommand_eq_clr_iff v, fun n => ?_, fun w => ?_⟩
  · rw [decodeCommand_eq_go_iff, goWord_iff, ← BitVec.toNat_inj, blenField_toNat]
    constructor
    · rintro ⟨⟨hop, hlow, hhigh, hle⟩, hn⟩
      exact ⟨hop, hlow, hhigh, hn, hn ▸ hle⟩
    · rintro ⟨hop, hlow, hhigh, hn, hle⟩
      exact ⟨⟨hop, hlow, hhigh, hn ▸ hle⟩, hn⟩
  · rw [decodeCommand_eq_illcmd_iff, legalCommand_eq_false_iff, ← goWord_iff, Bool.not_eq_true]

/-- The mask and match of the row GO, with its extra condition, are the legal GO words of R203. -/
theorem goWord_iff_mask (v : Word) :
    goWord v = true ↔ v &&& 0xFFFF80FF#32 = 1#32 ∧ (blenField v).toNat ≤ 64 := by
  constructor
  · intro h
    have hle := goWord_goCommand (blenField v)
    rw [goCommand_blenField h, h, eq_comm, decide_eq_true_eq] at hle
    refine ⟨?_, hle⟩
    rw [← goCommand_blenField h]
    generalize blenField v = n
    revert n; decide
  · rintro ⟨hmask, hle⟩
    have hfield {start len : Nat} (hones : (0xFFFF80FF#32).extractLsb' start len = BitVec.allOnes len) :
        v.extractLsb' start len = (1#32).extractLsb' start len := by
      rw [← hmask, BitVec.extractLsb'_and, hones, BitVec.and_allOnes]
    have hop : v.extractLsb' 0 4 = 1 := hfield (by decide)
    have hlow : v.extractLsb' 4 4 = 0 := hfield (by decide)
    have hhigh : v.extractLsb' 15 17 = 0 := hfield (by decide)
    have hblen : (v.extractLsb' 8 7).toNat ≤ 64 := hle
    simp [goWord, hop, hlow, hhigh, hblen, -BitVec.extractLsb'_toNat]

/-! ### The opcode table: transaction words (R95) -/

theorem twWe_and (t u : Tw) : twWe (t &&& u) = (twWe t && twWe u) := BitVec.getLsbD_and

theorem twIndex_and (t u : Tw) : twIndex (t &&& u) = twIndex t &&& twIndex u := BitVec.extractLsb'_and

theorem twData_and (t u : Tw) : twData (t &&& u) = twData t &&& twData u := BitVec.extractLsb'_and

/-- Two transaction words are the same when their fields are. -/
theorem tw_eq_iff (t u : Tw) : t = u ↔ twWe t = twWe u ∧ twIndex t = twIndex u ∧ twData t = twData u := by
  refine ⟨fun h => h ▸ ⟨rfl, rfl, rfl⟩, fun ⟨hwe, hindex, hdata⟩ => ?_⟩
  rw [← mkTw_fields t, hwe, hindex, hdata, mkTw_fields]

/-- The fields of a mask or match of the table. -/
@[simp] theorem twWe_ofNat (n : Nat) : twWe (BitVec.ofNat 40 n) = decide (n / 2 ^ 39 % 2 = 1) := by
  rw [twWe, BitVec.getLsbD_ofNat, Nat.testBit_eq_decide_div_mod_eq]
  rfl

@[simp, inherit_doc twWe_ofNat] theorem twIndex_ofNat (n : Nat) :
    twIndex (BitVec.ofNat 40 n) = BitVec.ofNat 7 (n / 2 ^ 32) := by
  apply BitVec.eq_of_toNat_eq
  rw [twIndex, BitVec.extractLsb'_toNat, BitVec.toNat_ofNat, BitVec.toNat_ofNat, Nat.shiftRight_eq_div_pow]
  omega

@[simp, inherit_doc twWe_ofNat] theorem twData_ofNat (n : Nat) : twData (BitVec.ofNat 40 n) = BitVec.ofNat 32 n := by
  apply BitVec.eq_of_toNat_eq
  rw [twData, BitVec.extractLsb'_toNat, BitVec.toNat_ofNat, BitVec.toNat_ofNat, Nat.shiftRight_zero]
  omega

/-- A row hits field by field. -/
theorem TwRow.hits_iff (r : TwRow) (t : Tw) : r.hits t = true ↔
    ((twWe t && twWe r.mask) = twWe r.pattern ∧ twIndex t &&& twIndex r.mask = twIndex r.pattern ∧
      twData t &&& twData r.mask = twData r.pattern) ∧ r.extra t = true := by
  rw [TwRow.hits, Bool.and_eq_true, beq_iff_eq, tw_eq_iff, twWe_and, twIndex_and, twData_and]

/-- The masks of the word index, `0xFF` and `0xF0` in the table's leading byte (R92). -/
theorem index_and_allOnes (widx : BitVec 7) : widx &&& 0x7F#7 = widx := BitVec.and_allOnes

@[inherit_doc index_and_allOnes] theorem index_and_bankMask (widx : BitVec 7) :
    (widx &&& 0x70#7 = 0x10#7 ↔ bankOf widx = 1#3) ∧ (widx &&& 0x70#7 = 0x20#7 ↔ bankOf widx = 2#3) := by
  revert widx; decide

/-- The mask of the rows NOP and CLR takes the whole command word. -/
theorem data_and_allOnes (v : Word) : v &&& 0xFFFFFFFF#32 = v := BitVec.and_allOnes

/-- The operands that a row builds from the transaction word are those of its fields (R94). -/
theorem toFin_extract_tw (t : Tw) : (t.extractLsb' 32 4).toFin = bankReg (twIndex t) := by
  have h : (twIndex t).extractLsb' 0 4 = t.extractLsb' 32 4 := by
    apply BitVec.eq_of_toNat_eq
    rw [twIndex, BitVec.extractLsb'_toNat, BitVec.extractLsb'_toNat, BitVec.extractLsb'_toNat, Nat.shiftRight_zero]
    exact Nat.mod_mod_of_dvd _ (by decide)
  rw [bankReg, h]

@[inherit_doc toFin_extract_tw] theorem blen_extract_tw (t : Tw) : t.extractLsb' 8 7 = blenField (twData t) := by
  have h : (twData t).extractLsb' 8 7 = t.extractLsb' 8 7 := BitVec.extractLsb'_extractLsb'_of_le (by decide)
  exact h.symm

@[inherit_doc toFin_extract_tw] theorem byte_extract_tw (t : Tw) :
    t.extractLsb' 0 8 = (twData t).extractLsb' 0 8 :=
  (BitVec.extractLsb'_extractLsb'_of_le (by decide)).symm

@[inherit_doc toFin_extract_tw] theorem index_extract_tw (t : Tw) : t.extractLsb' 32 7 = twIndex t := rfl

@[inherit_doc toFin_extract_tw] theorem data_extract_tw (t : Tw) : t.extractLsb' 0 32 = twData t := rfl

/-- What the first row that hits builds. -/
def firstHit (rows : List TwRow) (t : Tw) : Option Instr := (rows.find? (·.hits t)).map (·.build t)

/-- The rows of format RD are tried before the others. -/
theorem decodeByRows_eq_firstHit (t : Tw) : decodeByRows t = (firstHit rdRows t).or (firstHit wrRows t) := by
  rw [decodeByRows, List.find?_append, firstHit, firstHit]
  cases rdRows.find? (·.hits t) <;> rfl

@[simp] theorem firstHit_nil (t : Tw) : firstHit [] t = none := rfl

@[simp] theorem firstHit_cons (r : TwRow) (rs : List TwRow) (t : Tw) :
    firstHit (r :: rs) t = if r.hits t = true then some (r.build t) else firstHit rs t := by
  rw [firstHit, List.find?_cons]
  cases r.hits t <;> rfl

/-- No row of format RD hits a write. -/
theorem firstHit_rdRows_of_write {t : Tw} (hwe : twWe t = true) : firstHit rdRows t = none := by
  simp [rdRows, TwRow.hits_iff, hwe]

/-- The rows of one format are the decoder's chain of conditions, once every mask and match is evaluated on the fields. -/
theorem firstHit_rdRows_of_read {t : Tw} (hwe : twWe t = false) :
    firstHit rdRows t = some (decodeRead (twIndex t)) := by
  simp [rdRows, TwRow.hits_iff, hwe, index_and_allOnes, index_and_bankMask, decodeRead, apply_ite some,
    toFin_extract_tw, index_extract_tw, -BitVec.toFin_extractLsb']

@[inherit_doc firstHit_rdRows_of_read]
theorem firstHit_wrRows_of_command {t : Tw} (hwe : twWe t = true) (hctrl : twIndex t = 0) :
    firstHit wrRows t = some (decodeCommand (twData t)) := by
  simp [wrRows, TwRow.hits_iff, hwe, hctrl, data_and_allOnes, decodeCommand, apply_ite some, goWord_iff_mask,
    blen_extract_tw, data_extract_tw, -BitVec.extractLsb'_toNat]

@[inherit_doc firstHit_rdRows_of_read]
theorem firstHit_wrRows_of_write {t : Tw} (hwe : twWe t = true) (hctrl : twIndex t ≠ 0) :
    firstHit wrRows t = some (decodeWrite (twIndex t) (twData t)) := by
  have hctrl' : twIndex t ≠ 0#7 := hctrl
  simp [wrRows, TwRow.hits_iff, hwe, hctrl', index_and_allOnes, index_and_bankMask, decodeWrite, apply_ite some,
    toFin_extract_tw, byte_extract_tw, index_extract_tw, data_extract_tw, -BitVec.toFin_extractLsb']

/-- The fifteen rows of transaction words, by the format of the word. -/
theorem decodeByRows_eq_decodeTw (t : Tw) : decodeByRows t = some (decodeTw t) := by
  rw [decodeByRows_eq_firstHit, decodeTw]
  cases hwe : twWe t
  case false => rw [firstHit_rdRows_of_read hwe]; rfl
  case true =>
    rw [firstHit_rdRows_of_write hwe, Option.none_or]
    by_cases hctrl : twIndex t = 0
    · rw [firstHit_wrRows_of_command hwe hctrl, if_pos rfl, if_pos hctrl]
    · rw [firstHit_wrRows_of_write hwe hctrl, if_pos rfl, if_neg hctrl]

/-! ### The opcode table: engine control words (R95, R97) -/

/-- An engine control word is its two fields. -/
theorem ew_fields (e : Ew) : e.extractLsb' 7 2 ++ e.extractLsb' 0 7 = e :=
  (BitVec.extractLsb'_append_extractLsb'_eq_extractLsb' (start₁ := 0) (len₁ := 7) (by decide)).trans
    BitVec.extractLsb'_eq_self

theorem ew_and_allOnes (e : Ew) : e &&& 0x1FF = e := BitVec.and_allOnes

/-- The mask and match of the row E.QR: `PHASE = 2`. -/
theorem ew_phase_iff_mask (e : Ew) : e &&& 0x180 = 0x100 ↔ e.extractLsb' 7 2 = 2 := by
  have hmask : (e.extractLsb' 7 2 ++ e.extractLsb' 0 7) &&& (0b11#2 ++ 0#7) = e.extractLsb' 7 2 ++ 0#7 := by
    rw [BitVec.and_append, BitVec.and_zero]
    exact congrArg (· ++ 0#7) BitVec.and_allOnes
  rw [ew_fields] at hmask
  exact hmask ▸ BitVec.append_left_inj (s₂ := 2#2) 0#7

/-- The operand of E.QR, as the table masks it and as the decoder reads it. -/
theorem ew_q_mask_toNat (e : Ew) : (e &&& 0x07F).toNat = (e.extractLsb' 0 7).toNat := by
  rw [BitVec.toNat_and, BitVec.extractLsb'_toNat, Nat.shiftRight_zero]
  exact Nat.and_two_pow_sub_one_eq_mod e.toNat 7

@[inherit_doc ew_q_mask_toNat] theorem ew_q_mask (e : Ew) : (e &&& 0x07F).setWidth 7 = e.extractLsb' 0 7 := by
  apply BitVec.eq_of_toNat_eq
  rw [BitVec.toNat_setWidth, ew_q_mask_toNat, Nat.mod_eq_of_lt (e.extractLsb' 0 7).isLt]

/-- The decoder's conditions for engine control words exclude each other, so their order decides nothing. -/
theorem decodeEw_eq_ok_iff (L : Lanes) (e : Ew) (i : Instr) : decodeEw L e = .ok i ↔
    (e = 0x080 ∧ i = .einit) ∨
    (e.extractLsb' 7 2 = 2 ∧ (e.extractLsb' 0 7).toNat < 80 ∧ L.admits (e.extractLsb' 0 7) = true ∧
      i = .eqr (e.extractLsb' 0 7)) ∨
    (e = 0x1D0 ∧ i = .efinal) := by
  constructor
  · intro h
    dsimp only [decodeEw] at h
    split_ifs at h with hidle hinit hround hfinal
    · exact .inl ⟨hinit, (Except.ok.inj h).symm⟩
    · obtain ⟨hphase, hq, hadmits⟩ := hround
      exact .inr (.inl ⟨hphase, hq, hadmits, (Except.ok.inj h).symm⟩)
    · exact .inr (.inr ⟨hfinal, (Except.ok.inj h).symm⟩)
  · rintro (⟨rfl, rfl⟩ | ⟨hphase, hq, hadmits, rfl⟩ | ⟨rfl, rfl⟩)
    · rfl
    · have hother {e' : Ew} (h : e'.extractLsb' 7 2 ≠ 2) : e ≠ e' := fun he => h (he ▸ hphase)
      rw [decodeEw, if_neg (hother (by decide)), if_neg (hother (by decide)), if_pos ⟨hphase, hq, hadmits⟩]
    · rfl

/-- The three rows of engine control words, by their masks, matches and conditions. -/
theorem decodeEw_eq_ok_iff_rows (L : Lanes) (e : Ew) (i : Instr) : decodeEw L e = .ok i ↔
    (e &&& 0x1FF = 0x080 ∧ i = .einit) ∨
    (e &&& 0x180 = 0x100 ∧ (e &&& 0x07F).toNat < 80 ∧ (e &&& 0x07F).toNat % L.count = 0 ∧
      i = .eqr ((e &&& 0x07F).setWidth 7)) ∨
    (e &&& 0x1FF = 0x1D0 ∧ i = .efinal) := by
  have hadmits : L.admits (e.extractLsb' 0 7) = true ↔ (e.extractLsb' 0 7).toNat % L.count = 0 := beq_iff_eq
  rw [decodeEw_eq_ok_iff, ew_and_allOnes, ew_phase_iff_mask, ew_q_mask_toNat, ew_q_mask, hadmits]

/-- Settles O4: row by row on the fields of a transaction word; the three conditions of an engine control word exclude
each other. -/
theorem decodingFollowsTheOpcodeTable : Obligations.DecodingFollowsTheOpcodeTable := by
  unfold Obligations.DecodingFollowsTheOpcodeTable
  exact ⟨decodeByRows_eq_decodeTw, decodeEw_eq_ok_iff_rows⟩

/-! ### Whatever a word decodes to is well-formed (R93, R95, R97) -/

/-- The catch-all row of reads is reached only with an index that is not readable. -/
theorem wf_decodeRead (L : Lanes) (widx : BitVec 7) : (decodeRead widx).wf L = true := by
  unfold decodeRead
  split_ifs with h1 h2 h3 hdin hdout
  case neg =>
    have hzero : readableIndex widx = false := by
      rw [Bool.eq_false_iff, ne_eq, readableIndex_iff]
      tauto
    simp [Instr.wf, hzero]
  all_goals rfl

theorem wf_decodeCommand (L : Lanes) (v : Word) : (decodeCommand v).wf L = true := by
  unfold decodeCommand
  split_ifs with h0 hgo h2
  · rfl
  · obtain ⟨-, hle⟩ := (goWord_iff_mask v).mp hgo
    exact decide_eq_true hle
  · rfl
  · have hill : legalCommand v = false := (legalCommand_eq_false_iff v).mpr ⟨h0, h2, Bool.eq_false_iff.mpr hgo⟩
    simp [Instr.wf, hill]

/-- The catch-all row of writes is reached only with an index that is not writable. -/
theorem wf_decodeWrite (L : Lanes) {widx : BitVec 7} (hctrl : widx ≠ 0) (v : Word) :
    (decodeWrite widx v).wf L = true := by
  unfold decodeWrite
  split_ifs with h4 h5 h3 hdin
  case neg =>
    have hign : writableIndex widx = false := by
      rw [Bool.eq_false_iff, ne_eq, writableIndex_iff]
      tauto
    simp [Instr.wf, hign]
  all_goals rfl

theorem wf_decodeTw (L : Lanes) (t : Tw) : (decodeTw t).wf L = true := by
  unfold decodeTw
  split_ifs with hwe hctrl
  · exact wf_decodeCommand L _
  · exact wf_decodeWrite L hctrl _
  · exact wf_decodeRead L _

theorem wf_of_decodeEw {L : Lanes} {e : Ew} {i : Instr} (h : decodeEw L e = .ok i) : i.wf L = true := by
  rcases (decodeEw_eq_ok_iff L e i).mp h with ⟨-, rfl⟩ | ⟨-, hq, hadmits, rfl⟩ | ⟨-, rfl⟩
  · rfl
  · rw [Instr.wf, hadmits, Bool.and_true, decide_eq_true hq]
  · rfl

/-- Settles O2: by the kind of word, then by the row that took it. -/
theorem decodedInstructionsAreWellFormed : Obligations.DecodedInstructionsAreWellFormed := by
  unfold Obligations.DecodedInstructionsAreWellFormed
  intro L c i h
  cases c with
  | tw t => exact Except.ok.inj h ▸ wf_decodeTw L t
  | ew e => exact wf_of_decodeEw h

/-! ### The encoder is the decoder's inverse (R90, R94, R98) -/

/-- Every row builds its operands from the bits that its encoding puts them in. -/
theorem encode_decodeRead (widx : BitVec 7) : encode (decodeRead widx) = .tw (readTw widx) := by
  unfold decodeRead
  split_ifs with h1 h2 h3 hdin hdout
  · rw [h1]; rfl
  · rw [h2]; rfl
  · rw [h3]; rfl
  · rw [encode, ← hdin, bankIndex_of_bank]
  · rw [encode, ← hdout, bankIndex_of_bank]
  · rfl

@[inherit_doc encode_decodeRead]
theorem encode_decodeCommand (v : Word) : encode (decodeCommand v) = .tw (writeTw 0 v) := by
  unfold decodeCommand
  split_ifs with h0 hgo h2
  · rw [h0]; rfl
  · rw [encode, goCommand_blenField hgo]
  · rw [h2]; rfl
  · rfl

/-- The byte of a byte port's word, written back with zeros above it (R94 (b), log 8). -/
theorem setWidth_low_byte (v : Word) : (v.extractLsb' 0 8).setWidth 32 = v &&& 0xFF := by
  apply BitVec.eq_of_toNat_eq
  have hlow : v.toNat &&& 255 = v.toNat % 256 := Nat.and_two_pow_sub_one_eq_mod v.toNat 8
  have hand : (v &&& 0xFF).toNat = v.toNat &&& 255 := BitVec.toNat_and ..
  rw [BitVec.toNat_setWidth, BitVec.extractLsb'_toNat, Nat.shiftRight_zero, hand, hlow]
  omega

@[inherit_doc encode_decodeRead] theorem encode_decodeWrite (widx : BitVec 7) (v : Word) :
    encode (decodeWrite widx v) = .tw (writeTw widx (if widx = 4 ∨ widx = 5 then v &&& 0xFF else v)) := by
  by_cases hport : widx = 4 ∨ widx = 5
  · rw [if_pos hport, ← setWidth_low_byte]
    rcases hport with rfl | rfl <;> rfl
  · obtain ⟨h4, h5⟩ := not_or.mp hport
    rw [if_neg hport, decodeWrite, if_neg h4, if_neg h5]
    split_ifs with h3 hdin
    · rw [h3]; rfl
    · rw [encode, ← hdin, bankIndex_of_bank]
    · rfl

/-- Settles O3: by the format of the word, then by the row that took it. -/
theorem encodeOfDecode : Obligations.EncodeOfDecode := by
  unfold Obligations.EncodeOfDecode
  refine ⟨fun widx v => ?_, fun widx v => ?_, fun L e i h => ?_⟩
  · rw [decodeTw_read, encode_decodeRead, readTw]
  · change encode (decodeTw (writeTw widx v)) = .tw (writeTw widx _)
    rw [decodeTw_write]
    by_cases hctrl : widx = 0
    · subst hctrl
      rw [if_pos rfl, encode_decodeCommand, if_neg (by decide)]
    · rw [if_neg hctrl, encode_decodeWrite]
  · rcases (decodeEw_eq_ok_iff L e i).mp h with ⟨rfl, rfl⟩ | ⟨hphase, -, -, rfl⟩ | ⟨rfl, rfl⟩
    · rfl
    · rw [encode, ← hphase, ew_fields]
    · rfl

/-- The words the encoder writes, decoded: reads, writes, commands. -/
theorem decode_readTw (L : Lanes) (widx : BitVec 7) : decode L (.tw (readTw widx)) = .ok (decodeRead widx) :=
  congrArg Except.ok (decodeTw_read widx 0)

@[inherit_doc decode_readTw] theorem decode_writeTw (L : Lanes) {widx : BitVec 7} (hctrl : widx ≠ 0) (v : Word) :
    decode L (.tw (writeTw widx v)) = .ok (decodeWrite widx v) := by
  rw [decode, decodeTw_write, if_neg hctrl]

@[inherit_doc decode_readTw]
theorem decode_commandTw (L : Lanes) (v : Word) : decode L (.tw (writeTw 0 v)) = .ok (decodeCommand v) := by
  rw [decode, decodeTw_write, if_pos rfl]

/-- Settles O1, row by row: well-formed operands pass the conditions of their row and of no row before it. -/
theorem decodeOfEncode : Obligations.DecodeOfEncode := by
  unfold Obligations.DecodeOfEncode
  intro L i hwf
  cases i with
  | rdstat => exact decode_readTw L 1
  | rdlens => exact decode_readTw L 2
  | rdctr => exact decode_readTw L 3
  | rddin i => rw [encode, decode_readTw, decodeRead_bankIndex_one]
  | rddout i => rw [encode, decode_readTw, decodeRead_bankIndex_two]
  | rdzero widx =>
    have hzero : readableIndex widx = false := by simpa [Instr.wf] using hwf
    rw [encode, decode_readTw, decodeRead_of_not_readable hzero]
  | keyb b => rw [encode, decode_writeTw L (by decide), decodeWrite, if_pos rfl, low_byte_setWidth]
  | nonceb b => rw [encode, decode_writeTw L (by decide), decodeWrite, if_neg (by decide), if_pos rfl, low_byte_setWidth]
  | setctr w => exact decode_writeTw L (by decide) w
  | din i w =>
    rw [encode, decode_writeTw L (bankIndex_ne_single (by decide) i (by decide)), decodeWrite_bankIndex_one]
  | nop => exact decode_commandTw L 0
  | go n =>
    have hgo : goWord (goCommand n) = true := (goWord_goCommand n).trans hwf
    rw [encode, decode_commandTw, decodeCommand_of_goWord hgo, blenField_goCommand]
  | clr => exact decode_commandTw L 2
  | illcmd v =>
    have hill : legalCommand v = false := by simpa [Instr.wf] using hwf
    rw [encode, decode_commandTw, (decodeCommand_eq_illcmd_iff v v).mpr ⟨rfl, hill⟩]
  | wrign widx v =>
    have hign : writableIndex widx = false := by simpa [Instr.wf] using hwf
    have hctrl : widx ≠ 0 := by rintro rfl; exact absurd hign (by decide)
    rw [encode, decode_writeTw L hctrl, decodeWrite_of_not_writable hign]
  | einit => exact (decodeEw_eq_ok_iff L _ _).mpr (.inl ⟨rfl, rfl⟩)
  | eqr q =>
    obtain ⟨hlt, hadmits⟩ : q.toNat < 80 ∧ L.admits q = true := by simpa [Instr.wf] using hwf
    have hphase : ((2 : BitVec 2) ++ q).extractLsb' 7 2 = 2 := BitVec.extractLsb'_append_eq_left
    have hq : ((2 : BitVec 2) ++ q).extractLsb' 0 7 = q := BitVec.extractLsb'_append_eq_right
    refine (decodeEw_eq_ok_iff L _ _).mpr (.inr (.inl ?_))
    rw [hq]
    exact ⟨hphase, hlt, hadmits, rfl⟩
  | efinal => exact (decodeEw_eq_ok_iff L _ _).mpr (.inr (.inr ⟨rfl, rfl⟩))

end Sys2Proof

/-! PROOFS. The family of 40_block_transform.md: the quarter-round on the array, the rounds, the bytes of a block, and the
Engine's steps E.INIT and E.QR. -/

namespace Sys2Proof.Machine

/-! ### Rotation (R121) -/

/-- The bits that leave at the top come back at the bottom, for every amount. -/
theorem rotl32_getLsbD (v : Word) {n i : Nat} (hn : n ≤ 32) (hi : i < 32) :
    (rotl32 v n).getLsbD ((i + n) % 32) = v.getLsbD i := by
  rw [rotl32, BitVec.getLsbD_or, BitVec.getLsbD_shiftLeft, BitVec.getLsbD_ushiftRight]
  by_cases hwrap : i + n < 32
  · have hout : v.getLsbD (32 - n + (i + n)) = false := BitVec.getLsbD_of_ge _ _ (by omega)
    simp [Nat.mod_eq_of_lt hwrap, hwrap, hout]
  · have hmod : (i + n) % 32 = i + n - 32 := by omega
    have hlow : i + n - 32 < n := by omega
    have hback : 32 - n + (i + n - 32) = i := by omega
    simp [hmod, hlow, hback]

/-- Settles O32: each of the four amounts is below 32. -/
theorem rotationMovesEveryBit : Obligations.RotationMovesEveryBit := by
  unfold Obligations.RotationMovesEveryBit
  exact fun v n i hn hi => rotl32_getLsbD v (by omega) hi

/-! ### Four words of the array (R122) -/

/-- The words of the array that a quadruple names. -/
def Quad.words (i : Quad) : List (Fin 16) := [i.a, i.b, i.c, i.d]

theorem Quad.mem_words {i : Quad} {j : Fin 16} : j ∈ i.words ↔ j = i.a ∨ j = i.b ∨ j = i.c ∨ j = i.d := by
  simp [Quad.words]

/-- The array with the four words of a quadruple replaced. -/
def putQuad (x : Words16) (i : Quad) (w : Word × Word × Word × Word) : Words16 :=
  (((x.set i.a w.1).set i.b w.2.1).set i.c w.2.2.1).set i.d w.2.2.2

/-- A quarter-round replaces the four words of its quadruple by `QR4` of them. -/
theorem qr_eq_putQuad (x : Words16) (i : Quad) : qr x i = putQuad x i (qr4 x[i.a] x[i.b] x[i.c] x[i.d]) := rfl

theorem putQuad_getElem (x : Words16) (i : Quad) (w : Word × Word × Word × Word) (j : Fin 16) :
    (putQuad x i w)[j] =
      if i.d = j then w.2.2.2 else if i.c = j then w.2.2.1 else if i.b = j then w.2.1 else if i.a = j then w.1 else x[j] := by
  simp only [putQuad, Fin.getElem_fin, Vector.getElem_set, Fin.ext_iff]

/-- The words outside the quadruple keep their values. -/
theorem putQuad_getElem_of_notMem (x : Words16) {i : Quad} (w : Word × Word × Word × Word) {j : Fin 16}
    (h : j ∉ i.words) : (putQuad x i w)[j] = x[j] := by
  obtain ⟨ha, hb, hc, hd⟩ : ¬ i.a = j ∧ ¬ i.b = j ∧ ¬ i.c = j ∧ ¬ i.d = j := by
    simpa only [Quad.mem_words, not_or, eq_comm (a := j)] using h
  rw [putQuad_getElem, if_neg hd, if_neg hc, if_neg hb, if_neg ha]

/-- The words inside it do not depend on what the array held. -/
theorem putQuad_getElem_of_mem (x y : Words16) {i : Quad} (w : Word × Word × Word × Word) {j : Fin 16}
    (h : j ∈ i.words) : (putQuad x i w)[j] = (putQuad y i w)[j] := by
  rw [putQuad_getElem, putQuad_getElem]
  rcases Quad.mem_words.mp h with rfl | rfl | rfl | rfl <;> simp

/-- Four words put where they stand already. -/
theorem putQuad_self (x : Words16) (i : Quad) : putQuad x i (x[i.a], x[i.b], x[i.c], x[i.d]) = x := by
  simp [putQuad]

/-- The twelve assignments of R122, executed top to bottom on the array. -/
def twelveAssignments (x : Words16) (i : Quad) : Words16 :=
  let x := x.set i.a (x[i.a] + x[i.b])
  let x := x.set i.d (x[i.d] ^^^ x[i.a])
  let x := x.set i.d (rotl32 x[i.d] 16)
  let x := x.set i.c (x[i.c] + x[i.d])
  let x := x.set i.b (x[i.b] ^^^ x[i.c])
  let x := x.set i.b (rotl32 x[i.b] 12)
  let x := x.set i.a (x[i.a] + x[i.b])
  let x := x.set i.d (x[i.d] ^^^ x[i.a])
  let x := x.set i.d (rotl32 x[i.d] 8)
  let x := x.set i.c (x[i.c] + x[i.d])
  let x := x.set i.b (x[i.b] ^^^ x[i.c])
  x.set i.b (rotl32 x[i.b] 7)

section
variable {a b c d : Fin 16} (hab : a ≠ b) (hac : a ≠ c) (had : a ≠ d) (hbc : b ≠ c) (hbd : b ≠ d) (hcd : c ≠ d)
include hab hac had hbc hbd hcd

/-- Four distinct words put into the array, read back. -/
theorem putQuad_read (x : Words16) (w : Word × Word × Word × Word) :
    ((putQuad x ⟨a, b, c, d⟩ w)[a], (putQuad x ⟨a, b, c, d⟩ w)[b], (putQuad x ⟨a, b, c, d⟩ w)[c],
      (putQuad x ⟨a, b, c, d⟩ w)[d]) = w := by
  simp only [putQuad_getElem, hab.symm, hac.symm, had.symm, hbc.symm, hbd.symm, hcd.symm, if_true, if_false]

/-- An assignment to one of four distinct words is an assignment to its place among the four. -/
theorem putQuad_write (x : Words16) (p q r s v : Word) :
    (putQuad x ⟨a, b, c, d⟩ (p, q, r, s)).set a v = putQuad x ⟨a, b, c, d⟩ (v, q, r, s) ∧
    (putQuad x ⟨a, b, c, d⟩ (p, q, r, s)).set b v = putQuad x ⟨a, b, c, d⟩ (p, v, r, s) ∧
    (putQuad x ⟨a, b, c, d⟩ (p, q, r, s)).set c v = putQuad x ⟨a, b, c, d⟩ (p, q, v, s) ∧
    (putQuad x ⟨a, b, c, d⟩ (p, q, r, s)).set d v = putQuad x ⟨a, b, c, d⟩ (p, q, r, v) := by
  have hba := Fin.val_ne_of_ne hab.symm
  have hca := Fin.val_ne_of_ne hac.symm
  have hda := Fin.val_ne_of_ne had.symm
  have hcb := Fin.val_ne_of_ne hbc.symm
  have hdb := Fin.val_ne_of_ne hbd.symm
  have hdc := Fin.val_ne_of_ne hcd.symm
  simp [putQuad, Vector.set_comm _ _ hba, Vector.set_comm _ _ hca, Vector.set_comm _ _ hda, Vector.set_comm _ _ hcb,
    Vector.set_comm _ _ hdb, Vector.set_comm _ _ hdc]

/-- On four distinct words the twelve assignments are those of `QR4`, line by line. -/
theorem twelveAssignments_putQuad (x : Words16) (p q r s : Word) :
    twelveAssignments (putQuad x ⟨a, b, c, d⟩ (p, q, r, s)) ⟨a, b, c, d⟩ = putQuad x ⟨a, b, c, d⟩ (qr4 p q r s) := by
  have hread := fun p q r s => putQuad_read hab hac had hbc hbd hcd x (p, q, r, s)
  simp only [Prod.mk.injEq] at hread
  have hwrite := putQuad_write hab hac had hbc hbd hcd x
  simp only [twelveAssignments, qr4, hread, hwrite]

theorem qr_eq_twelveAssignments (x : Words16) : qr x ⟨a, b, c, d⟩ = twelveAssignments x ⟨a, b, c, d⟩ := by
  rw [qr_eq_putQuad, ← twelveAssignments_putQuad hab hac had hbc hbd hcd, putQuad_self]

end

/-- Settles O33: the array is its four words put into it, on which assignments and `QR4` go in step. -/
theorem quarterRoundIsTheTwelveAssignments : Obligations.QuarterRoundIsTheTwelveAssignments := by
  unfold Obligations.QuarterRoundIsTheTwelveAssignments
  intro x a b c d hab hac had hbc hbd hcd
  refine ⟨qr_eq_twelveAssignments hab hac had hbc hbd hcd x, putQuad_read hab hac had hbc hbd hcd x _,
    fun j ha hb hc hd => putQuad_getElem_of_notMem x _ ?_⟩
  simp [Quad.mem_words, ha, hb, hc, hd]

/-! ### The quadruples (R123, R131) -/

/-- The list of quadruples, which is the norm, follows the formula of R123. -/
theorem quads_formula : ∀ r : Fin 8,
    (r.val < 4 → quads[r].a.val = r.val % 4 ∧ quads[r].b.val = 4 + r.val % 4 ∧ quads[r].c.val = 8 + r.val % 4 ∧
      quads[r].d.val = 12 + r.val % 4) ∧
    (4 ≤ r.val → quads[r].a.val = r.val % 4 ∧ quads[r].b.val = 4 + (r.val % 4 + 1) % 4 ∧
      quads[r].c.val = 8 + (r.val % 4 + 2) % 4 ∧ quads[r].d.val = 12 + (r.val % 4 + 3) % 4) := by
  decide

/-- Settles O34: the list of R123 against its formula, row by row. -/
theorem quarterRoundIndicesFormula : Obligations.QuarterRoundIndicesFormula := by
  unfold Obligations.QuarterRoundIndicesFormula
  exact fun q _ => quads_formula ⟨q % 8, Nat.mod_lt q (by decide)⟩

/-- Only `q mod 8` matters. -/
theorem qidx_congr {p q : Nat} (h : p % 8 = q % 8) : qidx p = qidx q := by
  simp only [qidx, h]

/-- The quadruples of a column round have no word in common, nor have those of a diagonal round. -/
theorem quads_disjoint : ∀ r s : Fin 8, r.val / 4 = s.val / 4 → r ≠ s →
    ∀ i ∈ quads[r].words, i ∉ quads[s].words := by
  decide

theorem qidx_disjoint {p q : Nat} (hround : p / 4 = q / 4) (hne : p ≠ q) :
    (qidx p).words.Disjoint (qidx q).words :=
  quads_disjoint ⟨p % 8, Nat.mod_lt p (by decide)⟩ ⟨q % 8, Nat.mod_lt q (by decide)⟩ (by simp only; omega)
    (by simp only [ne_eq, Fin.mk.injEq]; omega)

/-- Words put at disjoint quadruples may be put in either order. -/
theorem putQuad_comm (x : Words16) {i k : Quad} (h : i.words.Disjoint k.words) (v w : Word × Word × Word × Word) :
    putQuad (putQuad x i v) k w = putQuad (putQuad x k w) i v := by
  apply Vector.ext
  intro j hj
  show (putQuad (putQuad x i v) k w)[(⟨j, hj⟩ : Fin 16)] = (putQuad (putQuad x k w) i v)[(⟨j, hj⟩ : Fin 16)]
  by_cases hi : ⟨j, hj⟩ ∈ i.words
  · rw [putQuad_getElem_of_notMem _ _ (h hi), putQuad_getElem_of_mem x _ v hi]
  · rw [putQuad_getElem_of_notMem _ v hi]
    by_cases hk : ⟨j, hj⟩ ∈ k.words
    · exact putQuad_getElem_of_mem _ x w hk
    · rw [putQuad_getElem_of_notMem _ w hk, putQuad_getElem_of_notMem _ v hi, putQuad_getElem_of_notMem _ w hk]

/-- A quarter-round leaves the words that another one of disjoint indices reads. -/
theorem qr_qr_eq_putQuad (x : Words16) {i k : Quad} (h : i.words.Disjoint k.words) :
    qr (qr x i) k = putQuad (qr x i) k (qr4 x[k.a] x[k.b] x[k.c] x[k.d]) := by
  have hkeep : ∀ j ∈ k.words, (qr x i)[j] = x[j] := fun j hj => putQuad_getElem_of_notMem x _ fun hi => h hi hj
  rw [qr_eq_putQuad (qr x i), hkeep k.a (by simp [Quad.words]), hkeep k.b (by simp [Quad.words]),
    hkeep k.c (by simp [Quad.words]), hkeep k.d (by simp [Quad.words])]

theorem qr_comm (x : Words16) {i k : Quad} (h : i.words.Disjoint k.words) : qr (qr x i) k = qr (qr x k) i := by
  rw [qr_qr_eq_putQuad x h, qr_qr_eq_putQuad x h.symm]
  exact putQuad_comm x h _ _

/-- Settles O36: the quadruples of a round are disjoint, and quarter-rounds on disjoint words commute. -/
theorem quarterRoundsOfARoundCommute : Obligations.QuarterRoundsOfARoundCommute := by
  unfold Obligations.QuarterRoundsOfARoundCommute
  intro x p q hround hne
  have hdisjoint := qidx_disjoint hround hne
  refine ⟨fun i hi => ?_, qr_comm x hdisjoint⟩
  have hnot : i ∉ (qidx q).words := hdisjoint (Quad.mem_words.mpr hi)
  simpa only [Quad.mem_words, not_or] using hnot

/-! ### The rounds (R124, R128) -/

theorem qrRun_eq_foldl (q n : Nat) (x : Words16) :
    qrRun q n x = (List.range n).foldl (fun y t => qr y (qidx (q + t))) x := by
  induction n generalizing q x with
  | zero => rfl
  | succ n ih =>
    rw [qrRun, ih, List.range_succ_eq_map, List.foldl_cons, List.foldl_map]
    simp only [Nat.add_zero, Nat.add_succ, Nat.succ_add]

/-- Quarter-rounds in two runs, the second going on where the first ends. -/
theorem qrRun_add (q m n : Nat) (x : Words16) : qrRun q (m + n) x = qrRun (q + m) n (qrRun q m x) := by
  induction m generalizing q x with
  | zero => rw [Nat.zero_add]; rfl
  | succ m ih => rw [Nat.succ_add, qrRun, qrRun, ih, Nat.add_right_comm, Nat.add_assoc q]

/-- A double-round is eight quarter-rounds from any multiple of 8 on. -/
theorem doubleRound_eq_qrRun (k : Nat) (x : Words16) : doubleRound x = qrRun (8 * k) 8 x := by
  have hq : ∀ r, qidx (8 * k + r) = qidx r := fun r => qidx_congr (Nat.mul_add_mod 8 k r)
  rw [qrRun_eq_foldl]
  simp only [hq]
  rfl

theorem doubleRounds_eq_qrRun (k n : Nat) (x : Words16) : doubleRounds n x = qrRun (8 * k) (8 * n) x := by
  induction n generalizing k x with
  | zero => rfl
  | succ n ih =>
    rw [doubleRounds, ih (k + 1), doubleRound_eq_qrRun k, Nat.mul_succ 8 n, Nat.add_comm (8 * n), qrRun_add, Nat.mul_succ]

theorem doubleRounds_eq_iterate (n : Nat) (x : Words16) : doubleRounds n x = doubleRound^[n] x := by
  induction n generalizing x with
  | zero => rfl
  | succ n ih => exact ih (doubleRound x)

theorem rounds20_eq_qrRun (x : Words16) : rounds20 x = qrRun 0 80 x := doubleRounds_eq_qrRun 0 10 x

/-- The first `m` quarter-rounds. -/
theorem qrRun_zero_eq_foldl (m : Nat) (x : Words16) :
    qrRun 0 m x = (List.range m).foldl (fun y q => qr y (qidx q)) x := by
  simp only [qrRun_eq_foldl, Nat.zero_add]

/-- Settles O35: the rounds by definition; the eighty quarter-rounds, eight at a time. -/
theorem rounds20IsEightyQuarterRounds : Obligations.Rounds20IsEightyQuarterRounds := by
  unfold Obligations.Rounds20IsEightyQuarterRounds
  refine ⟨fun x => rfl, fun x => rfl, fun x => rfl, doubleRounds_eq_iterate 10, fun x => ?_⟩
  rw [rounds20_eq_qrRun, qrRun_zero_eq_foldl]

/-! ### The initial matrix and the bytes of a block (R125, R126) -/

/-- The key, the counter and the nonce stand in the matrix after the four constants (R125). -/
theorem initState_key (k : Vector Word 8) (c : Word) (n : Vector Word 3) {j : Nat} (hj : j < 8) :
    (initState k c n)[4 + j] = k[j] := by
  interval_cases j <;> rfl

@[inherit_doc initState_key]
theorem initState_nonce (k : Vector Word 8) (c : Word) (n : Vector Word 3) {j : Nat} (hj : j < 3) :
    (initState k c n)[13 + j] = n[j] := by
  interval_cases j <;> rfl

/-- The bytes of words that stand `m` words further on in another register file. -/
theorem fileByte_of_shifted {n n' : Nat} {v : Vector Word n} {v' : Vector Word n'} {m p : Nat} (hp : p / 4 < n)
    (hp' : m + p / 4 < n') (h : v'[m + p / 4] = v[p / 4]) : fileByte v' (4 * m + p) = fileByte v p := by
  have hdiv : (4 * m + p) / 4 = m + p / 4 := Nat.mul_add_div (by decide) m p
  rw [fileByte_of_lt v' (hdiv ▸ hp'), fileByte_of_lt v hp, Nat.mul_add_mod]
  simp only [hdiv, h]

theorem serialise_length (v : Words16) : (serialise v).length = 64 := by
  simp [serialise, bytesLe]

/-- Byte `4i + j` of sixteen words is byte `j` of word `i` (R65 (d)). -/
theorem serialise_getD (v : Words16) (i : Fin 16) {j : Nat} (hj : j < 4) :
    (serialise v).getD (4 * i + j) 0 = wordByte v[i] j := by
  have hdiv : (4 * i.val + j) / 4 = i := by omega
  have hmod : (4 * i.val + j) % 4 = j := by omega
  rw [List.getD_eq_getElem?_getD, serialise, flatMap_bytesLe_getElem?, hdiv, hmod]
  simp

theorem feedForward_getElem (x s : Words16) (i : Fin 16) : (feedForward x s)[i] = x[i] + s[i] := by
  simp [feedForward]

/-- Settles O37: a block is its sixteen sums serialised; key and nonce stand in the matrix from words 4 and 13 on. -/
theorem blockBytes : Obligations.BlockBytes := by
  unfold Obligations.BlockBytes
  intro key nonce c _ _
  refine ⟨serialise_length _, fun i j hj => ?_, fun p hp => ?_, fun p hp => ?_⟩
  · rw [block, serialise_getD _ i hj, blockWords, feedForward_getElem]
  · have hword : p / 4 < 8 := by omega
    exact (fileByte_of_shifted hword (by omega) (initState_key _ c _ hword)).trans (fileByte_le32_words key hword)
  · have hword : p / 4 < 3 := by omega
    exact (fileByte_of_shifted hword (by omega) (initState_nonce _ c _ hword)).trans (fileByte_le32_words nonce hword)

/-! ### E.INIT and E.QR (R127, R128) -/

/-- Settles O40: the word is the encoder's, the array the initial matrix. -/
theorem einitLoadsTheMatrix : Obligations.EinitLoadsTheMatrix := by
  unfold Obligations.EinitLoadsTheMatrix
  exact ⟨fun L => decodeOfEncode L .einit rfl, fun s hinit => ⟨initState s.key s.ctr s.nonce, execEinit_eq hinit,
    rfl, rfl, rfl, rfl, fun _ => initState_key s.key s.ctr s.nonce, rfl, fun _ => initState_nonce s.key s.ctr s.nonce⟩⟩

/-- The control word of `E.QR q`: `PHASE = 2` above the operand (R97). -/
theorem ew_round_add (q : BitVec 7) : (0x100 : Ew) + q.setWidth 9 = (2 : BitVec 2) ++ q := by
  revert q; decide

theorem admits_iff (L : Lanes) (q : BitVec 7) : L.admits q = true ↔ q.toNat % L.count = 0 := beq_iff_eq

/-- `Q` grows by `QR_LANES` without overflow (R128). -/
theorem q_add_count_toNat {L : Lanes} {q : BitVec 7} (hlt : q.toNat < 80) (hmul : q.toNat % L.count = 0) :
    (q + BitVec.ofNat 7 L.count).toNat = q.toNat + L.count := by
  have hle := (q_add_count_le_and_multiple hlt hmul).1
  rw [BitVec.toNat_add, BitVec.toNat_ofNat]
  omega

/-- The rounds are over exactly when the new `Q`, as a number, is 80. -/
theorem q_eq_80_iff (q : BitVec 7) : q = 80 ↔ q.toNat = 80 := BitVec.toNat_inj.symm

/-- Settles O41: E.QR is `roundStep`, its run of quarter-rounds counted from `Q`. -/
theorem eqrAppliesTheLanes : Obligations.EqrAppliesTheLanes := by
  unfold Obligations.EqrAppliesTheLanes
  refine ⟨fun L q hlt hmul => ?_, fun s hround hlt hmul => ?_⟩
  · have hwf : (Instr.eqr q).wf L = true := by simp [Instr.wf, hlt, admits_iff, hmul]
    rw [ew_round_add]
    exact decodeOfEncode L (.eqr q) hwf
  · have hq := q_add_count_toNat hlt hmul
    refine ⟨s.q + BitVec.ofNat 7 s.lanes.count, hq, hq ▸ (q_add_count_le_and_multiple hlt hmul).1, ?_⟩
    rw [execEqr_eq hround rfl hlt ((admits_iff _ _).mpr hmul), roundStep, qrRun_eq_foldl]
    simp only [q_eq_80_iff]

/-! ### The Engine's turns (R129, R132) -/

/-- Where the invariants hold, the Engine's turn answers a next state with all that it only reads unchanged. -/
theorem engineTurn_keeps_inputs {s : State} (hs : CoreInv s) : ∃ t, engineTurn s = .next t ∧ t.key = s.key ∧
    t.nonce = s.nonce ∧ t.keyCnt = s.keyCnt ∧ t.nonceCnt = s.nonceCnt ∧ t.din = s.din ∧ t.blen = s.blen ∧
    t.errcode = s.errcode := by
  cases hp : s.phase with
  | idle => exact ⟨s, engineTurn_idle hp, rfl, rfl, rfl, rfl, rfl, rfl, rfl⟩
  | init => exact ⟨_, engineTurn_init hp (hs.init_clean hp).1, rfl, rfl, rfl, rfl, rfl, rfl, rfl⟩
  | round =>
    obtain ⟨hlt, hmul⟩ := hs.round_q hp
    exact ⟨_, engineTurn_round hp hlt ((admits_iff _ _).mpr hmul), rfl, rfl, rfl, rfl, rfl, rfl, rfl⟩
  | final => exact ⟨_, engineTurn_final hp (hs.final_q hp), rfl, rfl, rfl, rfl, rfl, rfl, rfl⟩

/-- Settles O8: in each phase the invariants give `Q` the value that selects the step. -/
theorem engineHasTheStepOfItsPhase : Obligations.EngineHasTheStepOfItsPhase := by
  unfold Obligations.EngineHasTheStepOfItsPhase
  intro s hs
  refine ⟨engineTurn_idle, fun hp => ?_, fun hp => ?_, fun hp => ?_, engineTurn_keeps_inputs hs⟩
  · rw [engineTurn_init hp (hs.init_clean hp).1, execEinit_eq hp]
  · obtain ⟨hlt, hmul⟩ := hs.round_q hp
    have hadmits := (admits_iff _ _).mpr hmul
    rw [engineTurn_round hp hlt hadmits, execEqr_eq hp rfl hlt hadmits]
  · rw [engineTurn_final hp (hs.final_q hp), execEfinal_eq hp]

/-- The state in which the first `m` quarter-rounds on the array of `s` are done. -/
def afterQuarterRounds (s : State) (m : Nat) : State :=
  { s with x := qrRun 0 m s.x, q := BitVec.ofNat 7 m, phase := if m = 80 then .final else .round }

theorem afterQuarterRounds_zero {s : State} (hround : s.phase = .round) (hq : s.q = 0) : afterQuarterRounds s 0 = s := by
  cases s
  cases hround
  cases hq
  rfl

/-- One turn of the Engine does the next `QR_LANES` quarter-rounds. -/
theorem engineTurn_afterQuarterRounds (s : State) {m : Nat} (hlt : m < 80) (hmul : m % s.lanes.count = 0) :
    engineTurn (afterQuarterRounds s m) = .next (afterQuarterRounds s (m + s.lanes.count)) := by
  have hm : (BitVec.ofNat 7 m).toNat = m := by rw [BitVec.toNat_ofNat]; omega
  have hq : (BitVec.ofNat 7 m + BitVec.ofNat 7 s.lanes.count).toNat = m + s.lanes.count := by
    rw [q_add_count_toNat (by rwa [hm]) (by rwa [hm]), hm]
  have hround : (afterQuarterRounds s m).phase = .round := if_neg hlt.ne
  rw [engineTurn_round hround (by rwa [afterQuarterRounds, hm]) ((admits_iff _ _).mpr (by rwa [afterQuarterRounds, hm]))]
  simp only [roundStep, afterQuarterRounds, q_eq_80_iff, hq, hm, qrRun_add, Nat.zero_add, BitVec.ofNat_add]

/-- `k` turns of the Engine do the next `k * QR_LANES` quarter-rounds, up to the eightieth. -/
theorem runSteps_engine_afterQuarterRounds (s : State) (rest : List Event) (k : Nat) {m : Nat}
    (hmul : m % s.lanes.count = 0) (hle : m + k * s.lanes.count ≤ 80) :
    runSteps k (afterQuarterRounds { s with script := List.replicate k .engine ++ rest } m) =
      .next (afterQuarterRounds { s with script := rest } (m + k * s.lanes.count)) := by
  induction k generalizing m with
  | zero => rw [Nat.zero_mul]; rfl
  | succ k ih =>
    have hpos : 0 < s.lanes.count := by cases s.lanes <;> decide
    have hnext : m + s.lanes.count + k * s.lanes.count = m + (k + 1) * s.lanes.count := by rw [Nat.succ_mul]; omega
    have hlt : m < 80 := by omega
    have hstep : step (afterQuarterRounds { s with script := List.replicate (k + 1) .engine ++ rest } m) =
        .next (afterQuarterRounds { s with script := List.replicate k .engine ++ rest } (m + s.lanes.count)) :=
      (step_engine rfl).trans
        (engineTurn_afterQuarterRounds { s with script := List.replicate k .engine ++ rest } hlt hmul)
    rw [runSteps_of_step hstep, ih (by rwa [Nat.add_mod_right]) (by omega), hnext]

/-- `m / QR_LANES` turns do exactly `m` quarter-rounds when 4 divides `m`: 1, 2 and 4 divide 4. -/
theorem div_count_mul_count (L : Lanes) {m : Nat} (h : m % 4 = 0) : m / L.count * L.count = m := by
  cases L <;> simp only [Lanes.count] <;> omega

/-- Settles O44: the turns applied one after the other, and the eighty quarter-rounds of `Rounds20`. -/
theorem roundsDoNotDependOnLanes : Obligations.RoundsDoNotDependOnLanes := by
  unfold Obligations.RoundsDoNotDependOnLanes
  intro s rest hround hq
  have hrun : ∀ m, m ≤ 80 → m % 4 = 0 →
      runSteps (m / s.lanes.count) { s with script := List.replicate (m / s.lanes.count) .engine ++ rest } =
        .next (afterQuarterRounds { s with script := rest } m) := by
    intro m hm h4
    have hturns := div_count_mul_count s.lanes h4
    have hstart := afterQuarterRounds_zero
      (s := { s with script := List.replicate (m / s.lanes.count) .engine ++ rest }) hround hq
    have h := runSteps_engine_afterQuarterRounds s rest (m / s.lanes.count) (m := 0) (Nat.zero_mod _) (by omega)
    rwa [hstart, hturns, Nat.zero_add] at h
  refine ⟨fun m hm h4 => ?_, ?_⟩
  · rw [hrun m hm h4, afterQuarterRounds, qrRun_zero_eq_foldl]
  · rw [hrun 80 (by decide) (by decide), afterQuarterRounds, ← rounds20_eq_qrRun, if_pos rfl]
    rfl

end Sys2Proof.Machine

/-! PROOFS. The family of 41_keystream_xor.md: the mask of a partial block, E.FINAL, a whole block, `Process` and the
Host's `PROCESS` sequence. -/

namespace Sys2Proof.Machine

/-! ### The mask of a partial block (R150) -/

/-- A mask depends only on how many of its word's four bytes lie below `n`. -/
theorem mask_eq_mask_min (n i : Nat) : mask n i = mask (min (n - 4 * i) 4) 0 := by
  apply word_eq_of_bytes
  intro j hj
  have hiff : 4 * i + j < n ↔ 4 * 0 + j < min (n - 4 * i) 4 := by omega
  simp only [wordByte_mask _ _ hj, maskByte, hiff]

/-- Settles O38: the bytes by `wordByte_mask`; the five values by the number of bytes below `n`. -/
theorem maskBytes : Obligations.MaskBytes := by
  unfold Obligations.MaskBytes
  intro n i _ _
  have hmask {m : Nat} (h : min (n - 4 * i) 4 = m) : mask n i = mask m 0 := h ▸ mask_eq_mask_min n i
  refine ⟨fun j hj => wordByte_mask n i hj, fun h => ?_, fun h => ?_, fun h => ?_, fun h => ?_, fun h => ?_⟩
  · rw [hmask (m := 4) (by omega)]; decide
  · rw [hmask (m := 0) (by omega)]; decide
  · rw [hmask (m := 1) (by omega)]; decide
  · rw [hmask (m := 2) (by omega)]; decide
  · rw [hmask (m := 3) (by omega)]; decide

/-! ### The output words and E.FINAL (R155) -/

theorem outputWords_getElem (din o : Words16) (n : Nat) (i : Fin 16) :
    (outputWords din o n)[i] = (din[i] ^^^ o[i]) &&& mask n i := by
  simp [outputWords]

/-- A byte of the output is data XOR keystream below `n`, zero from there on. -/
theorem wordByte_outputWords (din o : Words16) (n : Nat) (i : Fin 16) {j : Nat} (hj : j < 4) :
    wordByte (outputWords din o n)[i] j = if 4 * i.val + j < n then wordByte din[i] j ^^^ wordByte o[i] j else 0 := by
  rw [outputWords_getElem, wordByte_and, wordByte_xor, wordByte_mask _ _ hj, maskByte]
  split_ifs
  · exact BitVec.and_allOnes
  · exact BitVec.and_zero

/-- The same, by position in the register files. -/
theorem fileByte_outputWords (din o : Words16) {n p : Nat} (hp : p < n) :
    fileByte (outputWords din o n) p = fileByte din p ^^^ fileByte o p := by
  by_cases hin : p / 4 < 16
  · have hpos : 4 * (p / 4) + p % 4 < n := by omega
    have hbyte := wordByte_outputWords din o n ⟨p / 4, hin⟩ (Nat.mod_lt p (by decide))
    rw [if_pos hpos] at hbyte
    simp only [fileByte_of_lt _ hin]
    exact hbyte
  · simp only [fileByte_of_ge _ (Nat.le_of_not_lt hin)]
    decide

theorem inc_toNat (c : Word) : (inc c).toNat = (c.toNat + 1) % 2 ^ 32 := BitVec.toNat_add c 1

/-- Settles O42: E.FINAL is `finishBlock`, its output taken byte by byte. -/
theorem efinalWritesTheOutputBytes : Obligations.EfinalWritesTheOutputBytes := by
  unfold Obligations.EfinalWritesTheOutputBytes
  refine ⟨fun L => decodeOfEncode L .efinal rfl, fun s hfinal => ⟨_, inc s.ctr, execEfinal_eq hfinal, inc_toNat s.ctr,
    fun i j hj => ?_⟩⟩
  rw [wordByte_outputWords _ _ _ i hj, feedForward_getElem]

/-- Data that differ only beyond `n` give the same output of `n` bytes. -/
theorem outputWords_congr {d e : Words16} (o : Words16) {n : Nat} (h : ∀ p, p < n → fileByte d p = fileByte e p) :
    outputWords d o n = outputWords e o n := by
  apply file_eq_of_bytes
  intro p _
  by_cases hp : p < n
  · rw [fileByte_outputWords _ _ hp, fileByte_outputWords _ _ hp, h p hp]
  · rw [fileByte_outputWords_beyond _ _ (Nat.le_of_not_lt hp), fileByte_outputWords_beyond _ _ (Nat.le_of_not_lt hp)]

/-- Settles O43: `DIN` enters E.FINAL through the output words only. -/
theorem staleInputBytesNeverMatter : Obligations.StaleInputBytesNeverMatter := by
  unfold Obligations.StaleInputBytesNeverMatter
  intro s d hfinal hagree
  refine ⟨finishBlock s, execEfinal_eq hfinal, ?_⟩
  rw [execEfinal_eq (s := { s with din := d }) hfinal, finishBlock, finishBlock, outputWords_congr _ hagree]

/-! ### A block, turn by turn (R160, R264) -/

/-- The state `k` turns of the Engine after a block has been started in `s`: none taken; the matrix loaded and
`(k - 1) * QR_LANES` quarter-rounds done; the block finished. -/
def afterTurns (s : State) : Nat → State
  | 0 => s
  | k + 1 =>
    if k ≤ 80 / s.lanes.count then afterQuarterRounds (loadMatrix s) (k * s.lanes.count)
    else finishBlock (afterQuarterRounds (loadMatrix s) 80)

/-- No turn reads the script or the record of reads. -/
theorem afterTurns_withScriptReads (s : State) (es : List Event) (r : List Word) (k : Nat) :
    afterTurns { s with script := es, reads := r } k = { afterTurns s k with script := es, reads := r } := by
  cases k with
  | zero => rfl
  | succ k =>
    simp only [afterTurns]
    split_ifs <;> rfl

/-- After `STEPS_PER_BLOCK` turns the block is finished. -/
theorem afterTurns_stepsPerBlock (s : State) :
    afterTurns s s.lanes.stepsPerBlock = finishBlock (afterQuarterRounds (loadMatrix s) 80) := by
  rw [Lanes.stepsPerBlock, show 2 + 80 / s.lanes.count = (80 / s.lanes.count + 1) + 1 by omega, afterTurns,
    if_neg (by omega)]

section
variable {s : State} (hinit : s.phase = .init)
include hinit

/-- The core is busy until the last of the block's turns. -/
theorem afterTurns_idle_iff {k : Nat} (hk : k ≤ s.lanes.stepsPerBlock) :
    (afterTurns s k).phase = .idle ↔ k = s.lanes.stepsPerBlock := by
  rw [Lanes.stepsPerBlock] at hk ⊢
  cases k with
  | zero =>
    have hbusy : (afterTurns s 0).phase ≠ .idle := by simp [afterTurns, hinit]
    exact iff_of_false hbusy (Nat.add_pos_left (by decide) _).ne
  | succ k =>
    rw [afterTurns]
    split_ifs with hround
    · have hbusy : (afterQuarterRounds (loadMatrix s) (k * s.lanes.count)).phase ≠ .idle := by
        rw [afterQuarterRounds]
        split_ifs <;> simp
      exact iff_of_false hbusy (by omega)
    · exact iff_of_true rfl (by omega)

variable (hq : s.q = 0)
include hq

/-- Each of the `STEPS_PER_BLOCK` turns goes on with the block. -/
theorem engineTurn_afterTurns {k : Nat} (hk : k < s.lanes.stepsPerBlock) :
    engineTurn (afterTurns s k) = .next (afterTurns s (k + 1)) := by
  rw [Lanes.stepsPerBlock] at hk
  have h80 : 80 / s.lanes.count * s.lanes.count = 80 := div_count_mul_count s.lanes (m := 80) (by decide)
  cases k with
  | zero =>
    have hload : afterTurns s 1 = loadMatrix s := by
      rw [afterTurns, if_pos (Nat.zero_le _), Nat.zero_mul, afterQuarterRounds_zero rfl rfl]
    rw [hload]
    exact engineTurn_init hinit hq
  | succ k =>
    rw [afterTurns, if_pos (by omega), afterTurns]
    rcases Nat.lt_or_ge k (80 / s.lanes.count) with hlt | hge
    · have hpos : 0 < s.lanes.count := by cases s.lanes <;> decide
      have hlt80 : k * s.lanes.count < 80 := h80 ▸ Nat.mul_lt_mul_of_pos_right hlt hpos
      rw [if_pos (Nat.succ_le_of_lt hlt), Nat.succ_mul]
      exact engineTurn_afterQuarterRounds (loadMatrix s) hlt80 (Nat.mul_mod_left _ _)
    · rw [if_neg (by omega), show k = 80 / s.lanes.count by omega, h80]
      exact engineTurn_final rfl rfl

@[inherit_doc engineTurn_afterTurns]
theorem engineTurn_afterTurns_withScriptReads (es : List Event) (r : List Word) {k : Nat}
    (hk : k < s.lanes.stepsPerBlock) :
    engineTurn { afterTurns s k with script := es, reads := r } =
      .next { afterTurns s (k + 1) with script := es, reads := r } := by
  simp only [← afterTurns_withScriptReads]
  exact engineTurn_afterTurns (s := { s with script := es, reads := r }) hinit hq hk

/-- Any reads among the Engine's turns change only the record of reads. -/
theorem runSteps_afterTurns (rest : List Event) {w : List Event}
    (hw : ∀ e ∈ w, e = .engine ∨ ∃ widx, e = .access (readTw widx)) (r : List Word) {k : Nat}
    (hk : k + engineTurns w ≤ s.lanes.stepsPerBlock) :
    ∃ r', runSteps w.length { afterTurns s k with script := w ++ rest, reads := r } =
      .next { afterTurns s (k + engineTurns w) with script := rest, reads := r' ++ r } := by
  induction w generalizing k r with
  | nil => exact ⟨[], rfl⟩
  | cons e w ih =>
    obtain ⟨he, hrest⟩ := List.forall_mem_cons.mp hw
    rcases he with rfl | ⟨widx, rfl⟩
    · have hturns : engineTurns (.engine :: w) = 1 + engineTurns w := Nat.add_comm ..
      rw [hturns, ← Nat.add_assoc] at hk ⊢
      obtain ⟨r', hrun⟩ := ih hrest r hk
      refine ⟨r', (runSteps_of_step ?_).trans hrun⟩
      exact (step_engine rfl).trans (engineTurn_afterTurns_withScriptReads hinit hq (w ++ rest) r (by omega))
    · obtain ⟨r', hrun⟩ := ih hrest (windowRead { afterTurns s k with script := w ++ rest, reads := r } widx :: r) hk
      refine ⟨r' ++ [windowRead { afterTurns s k with script := w ++ rest, reads := r } widx],
        (runSteps_of_step ?_).trans (hrun.trans ?_)⟩
      · rw [step_access rfl, readTw, decodeTw_read]
        exact exec_decodeRead widx _
      · rw [List.append_assoc]
        rfl

end

/-! ### GO (R201, R204) -/

/-- The word of a well-formed Host instruction decodes to it (O1). -/
theorem decodeTw_of_encode {i : Instr} {t : Tw} (hwf : i.wf .one = true) (henc : encode i = .tw t) :
    decodeTw t = i := by
  have hdec := decodeOfEncode .one i hwf
  rw [henc] at hdec
  exact Except.ok.inj hdec

/-- Where `GO n` finds an idle, unlocked core it runs the checks of R201. -/
theorem exec_go_of_ready {s : State} {n : BitVec 7} (herr : s.errcode = 0) (hidle : s.phase = .idle)
    (hn : n.toNat ≤ 64) : exec (.go n) s = .next (startBlock n s) := by
  rw [exec, execGo, gated_of_ready herr hidle, performGo, if_pos hn]

/-- The state an accepted `GO n` leaves. -/
def blockStarted (n : BitVec 7) (s : State) : State :=
  { s with blen := n, dout := zeros16, valid := false, q := 0, phase := .init }

section
variable {s : State} {n : BitVec 7}

theorem startBlock_of_wrong_key (hkey : s.keyCnt ≠ 32) : startBlock n s = s.raiseFault .invalidKeyLength := by
  rw [startBlock, if_pos hkey]

variable (hkey : s.keyCnt = 32)
include hkey

theorem startBlock_of_wrong_nonce (hnonce : s.nonceCnt ≠ 12) :
    startBlock n s = s.raiseFault .invalidNonceLength := by
  rw [startBlock, if_neg (not_not_intro hkey), if_pos hnonce]

variable (hnonce : s.nonceCnt = 12)
include hnonce

theorem startBlock_of_empty : startBlock 0 s = { s with blen := 0, dout := zeros16, valid := true } := by
  rw [startBlock, if_neg (not_not_intro hkey), if_neg (not_not_intro hnonce), if_pos rfl]

theorem startBlock_of_wrapped (hn : n ≠ 0) (hovf : s.ctrOvf = true) :
    startBlock n s = s.raiseFault .counterWrap := by
  rw [startBlock, if_neg (not_not_intro hkey), if_neg (not_not_intro hnonce), if_neg hn, if_pos hovf]

theorem startBlock_of_accepted (hn : n ≠ 0) (hovf : s.ctrOvf = false) : startBlock n s = blockStarted n s := by
  rw [startBlock, if_neg (not_not_intro hkey), if_neg (not_not_intro hnonce), if_neg hn, if_neg (by simp [hovf]),
    blockStarted]

end

theorem exec_go_accepted {s : State} {n : BitVec 7} (herr : s.errcode = 0) (hidle : s.phase = .idle)
    (hkey : s.keyCnt = 32) (hnonce : s.nonceCnt = 12) (hovf : s.ctrOvf = false) (hpos : 1 ≤ n.toNat)
    (hle : n.toNat ≤ 64) : exec (.go n) s = .next (blockStarted n s) := by
  rw [exec_go_of_ready herr hidle hle, startBlock_of_accepted hkey hnonce (by bv_omega) hovf]

/-! ### One block (R160) -/

/-- What the turns of a block have made of the state in which it was accepted. -/
def blockDone (n : BitVec 7) (s : State) : State :=
  { s with
    dout := outputWords s.din (blockWords s.key s.ctr s.nonce) n.toNat
    ctr := inc s.ctr, ctrOvf := wrap s.ctr, valid := true, blen := n, phase := .idle, q := 0, x := zeros16 }

/-- The eighty quarter-rounds between E.INIT and E.FINAL are `Rounds20`, so the block is `BlockWords` (R126, R155). -/
theorem afterTurns_blockStarted (n : BitVec 7) (s : State) :
    afterTurns (blockStarted n s) s.lanes.stepsPerBlock = blockDone n s := by
  refine (afterTurns_stepsPerBlock (blockStarted n s)).trans ?_
  simp only [finishBlock, afterQuarterRounds, ← rounds20_eq_qrRun]
  rfl

/-- The bytes of `Block` are those of its words (R126). -/
theorem fileByte_eq_serialise_getD (v : Words16) {p : Nat} (hp : p < 64) : fileByte v p = (serialise v).getD p 0 := by
  have hfile : p / 4 < 16 := by omega
  have hbyte := serialise_getD v ⟨p / 4, hfile⟩ (Nat.mod_lt p (by decide))
  rw [Nat.div_add_mod] at hbyte
  rw [hbyte, fileByte_of_lt _ hfile]
  rfl

/-- The bytes of the output of a block, for a key and a nonce given as bytes. -/
theorem fileByte_outputWords_blockWords (din : Words16) (key nonce : List Byte) (c : Word) {n p : Nat} (hn : n ≤ 64)
    (hp : p < n) :
    fileByte (outputWords din (blockWords (keyWords key) c (nonceWords nonce)) n) p =
      fileByte din p ^^^ (block key c nonce).getD p 0 := by
  rw [fileByte_outputWords _ _ hp, fileByte_eq_serialise_getD (blockWords _ c _) (hp.trans_le hn), block]

/-- Settles O45: GO is accepted, the reads and the turns of the block follow. -/
theorem oneBlockIsBlockWords : Obligations.OneBlockIsBlockWords := by
  unfold Obligations.OneBlockIsBlockWords
  intro s n w rest hidle herr hkey hnonce hovf hpos hle hw hturns
  have hgo : exec (.go n) { s with script := w ++ rest } = .next (blockStarted n { s with script := w ++ rest })  :=
    exec_go_accepted herr hidle hkey hnonce hovf hpos hle
  have hdec : decodeTw (writeTw 0 (goCommand n)) = .go n := decodeTw_of_encode (by simp [Instr.wf, hle]) rfl
  have hstep : step { s with script := eventOf (.go n) :: w ++ rest } =
      .next (blockStarted n { s with script := w ++ rest }) := (step_access rfl).trans (hdec.symm ▸ hgo)
  obtain ⟨r, hrun⟩ := runSteps_afterTurns (s := blockStarted n s) rfl rfl rest hw s.reads (k := 0) (by
    rw [Nat.zero_add, hturns]; rfl)
  refine ⟨r, _, ?_, outputWords_getElem s.din (blockWords s.key s.ctr s.nonce) n.toNat, ?_⟩
  · rw [Nat.zero_add, hturns, afterTurns_blockStarted] at hrun
    rw [Nat.add_comm 1]
    exact (runSteps_of_step hstep).trans hrun
  · rintro key nonce - - hk hn p hp
    rw [← hk, ← hn]
    exact fileByte_outputWords_blockWords s.din key nonce s.ctr hle hp

/-! ### `Process` as one XOR with the keystream (R151, R153) -/

theorem xorBytes_length (d ks : List Byte) : (xorBytes d ks).length = min d.length ks.length := List.length_zipWith

theorem nil_xorBytes (ks : List Byte) : xorBytes [] ks = [] := List.zipWith_nil_left

/-- The input beyond the keystream's end does not matter. -/
theorem xorBytes_take (d ks : List Byte) {n : Nat} (h : ks.length ≤ n) : xorBytes (d.take n) ks = xorBytes d ks := by
  have hks : ks.take n = ks := List.take_of_length_le h
  calc xorBytes (d.take n) ks = xorBytes (d.take n) (ks.take n) := by rw [hks]
    _ = (xorBytes d ks).take n := List.take_zipWith.symm
    _ = xorBytes d ks := List.take_of_length_le (by rw [xorBytes_length]; omega)

/-- A keystream in two parts is spent part by part. -/
theorem xorBytes_append (d ks ls : List Byte) :
    xorBytes d (ks ++ ls) = xorBytes d ks ++ xorBytes (d.drop ks.length) ls := by
  calc xorBytes d (ks ++ ls)
      = (xorBytes d (ks ++ ls)).take ks.length ++ (xorBytes d (ks ++ ls)).drop ks.length :=
        (List.take_append_drop _ _).symm
    _ = xorBytes (d.take ks.length) ks ++ xorBytes (d.drop ks.length) ls := by
        rw [xorBytes, List.take_zipWith, List.drop_zipWith, List.take_left, List.drop_left, xorBytes, xorBytes]
    _ = xorBytes d ks ++ xorBytes (d.drop ks.length) ls := by rw [xorBytes_take _ _ le_rfl]

/-- `(d ^ s) ^ s = d`, as far as the keystream goes. -/
theorem xorBytes_xorBytes {d ks : List Byte} (h : d.length ≤ ks.length) : xorBytes (xorBytes d ks) ks = d := by
  induction d generalizing ks with
  | nil => rfl
  | cons b d ih =>
    cases ks with
    | nil => simp at h
    | cons k ks =>
      have htail : xorBytes (xorBytes d ks) ks = d := ih (by simpa using h)
      have hhead : b ^^^ k ^^^ k = b := by rw [BitVec.xor_assoc, BitVec.xor_self, BitVec.xor_zero]
      exact congrArg₂ List.cons hhead htail

/-- A block of an XOR is the XOR of the blocks. -/
theorem chunk_xorBytes (d ks : List Byte) (b : Nat) : chunk (xorBytes d ks) b = xorBytes (chunk d b) (chunk ks b) := by
  rw [chunk, xorBytes, List.drop_zipWith, List.take_zipWith]
  rfl

section
variable (key nonce : List Byte) (c : Word)

/-- The keystream of `m` blocks from counter `c` on. -/
def keystream (m : Nat) : List Byte := (List.range m).flatMap fun b => block key (c + BitVec.ofNat 32 b) nonce

theorem block_length (c : Word) : (block key c nonce).length = 64 := serialise_length _

theorem keystream_succ (m : Nat) :
    keystream key nonce c (m + 1) = keystream key nonce c m ++ block key (c + BitVec.ofNat 32 m) nonce := by
  simp [keystream, List.range_succ]

theorem keystream_length (m : Nat) : (keystream key nonce c m).length = 64 * m := by
  induction m with
  | zero => rfl
  | succ m ih => rw [keystream_succ, List.length_append, ih, block_length, Nat.mul_succ]

theorem chunk_keystream {m b : Nat} (hb : b < m) :
    chunk (keystream key nonce c m) b = block key (c + BitVec.ofNat 32 b) nonce := by
  induction m with
  | zero => omega
  | succ m ih =>
    have hlen := keystream_length key nonce c m
    rw [keystream_succ, chunk]
    rcases Nat.lt_succ_iff_lt_or_eq.mp hb with hlt | rfl
    · rw [List.drop_append_of_le_length (by omega), List.take_append_of_le_length (by rw [List.length_drop]; omega)]
      exact ih hlt
    · rw [List.drop_left' hlen, List.take_of_length_le (block_length ..).le]

/-- The output of the first `m` blocks of `data`. -/
def firstBlocks (data : List Byte) (m : Nat) : List Byte :=
  (List.range m).flatMap fun b => xorBytes (chunk data b) (block key (c + BitVec.ofNat 32 b) nonce)

theorem firstBlocks_succ (data : List Byte) (m : Nat) : firstBlocks key nonce c data (m + 1) =
    firstBlocks key nonce c data m ++ xorBytes (chunk data m) (block key (c + BitVec.ofNat 32 m) nonce) := by
  simp [firstBlocks, List.range_succ]

theorem processBytes_eq_firstBlocks (data : List Byte) :
    processBytes key nonce c data = firstBlocks key nonce c data (blockCount data.length) := rfl

/-- Block by block, the whole input is XORed with the whole keystream. -/
theorem firstBlocks_eq_xorBytes (data : List Byte) (m : Nat) :
    firstBlocks key nonce c data m = xorBytes data (keystream key nonce c m) := by
  induction m with
  | zero => exact List.zipWith_nil_right.symm
  | succ m ih =>
    rw [firstBlocks_succ, ih, keystream_succ, xorBytes_append, keystream_length, chunk,
      xorBytes_take _ _ (block_length ..).le]

theorem processBytes_eq_xorBytes (data : List Byte) :
    processBytes key nonce c data = xorBytes data (keystream key nonce c (blockCount data.length)) :=
  firstBlocks_eq_xorBytes key nonce c data _

/-- The blocks of a message cover it. -/
theorem length_le_keystream_length (data : List Byte) :
    data.length ≤ (keystream key nonce c (blockCount data.length)).length := by
  rw [keystream_length, blockCount]
  omega

theorem processBytes_length (data : List Byte) : (processBytes key nonce c data).length = data.length := by
  rw [processBytes_eq_xorBytes, xorBytes_length]
  exact min_eq_left (length_le_keystream_length key nonce c data)

theorem processBytes_processBytes (data : List Byte) :
    processBytes key nonce c (processBytes key nonce c data) = data := by
  rw [processBytes_eq_xorBytes key nonce c (processBytes ..), processBytes_length, processBytes_eq_xorBytes]
  exact xorBytes_xorBytes (length_le_keystream_length key nonce c data)

theorem chunk_processBytes (data : List Byte) (b : Nat) : chunk (processBytes key nonce c data) b =
    xorBytes (chunk data b) (block key (c + BitVec.ofNat 32 b) nonce) := by
  rw [processBytes_eq_xorBytes, chunk_xorBytes]
  by_cases hb : b < blockCount data.length
  · rw [chunk_keystream key nonce c hb]
  · have hbeyond : chunk data b = [] := by
      rw [chunk, List.drop_of_length_le (by rw [blockCount] at hb; omega), List.take_nil]
    rw [hbeyond, nil_xorBytes, nil_xorBytes]

/-- With right lengths, in the domain, `Process` has the value `processBytes` (R151, R152). -/
theorem process_of_inDomain (hkey : key.length = 32) (hnonce : nonce.length = 12) {data : List Byte}
    (hdom : inDomain c data.length = true) : process key nonce c data = .ok (processBytes key nonce c data) := by
  rw [process, if_neg (not_not_intro hkey), if_neg (not_not_intro hnonce), if_pos hdom]

end

/-- Settles O39: `Process` is one XOR with a keystream as long as the input needs. -/
theorem processProperties : Obligations.ProcessProperties := by
  unfold Obligations.ProcessProperties
  intro key nonce c m hkey hnonce hdom
  have hlen := processBytes_length key nonce c m
  refine ⟨_, process_of_inDomain key nonce c hkey hnonce hdom, ?_, hlen, fun hm => ?_, chunk_processBytes key nonce c m⟩
  · rw [process_of_inDomain key nonce c hkey hnonce (hlen.symm ▸ hdom), processBytes_processBytes]
  · rw [hm]
    rfl

/-! ### The Host's accesses around a block (R101, R161) -/

/-- A well-formed Host instruction that answers a next state is performed. -/
theorem perform_of_encode {i : Instr} {t : Tw} {s u : State} (hwf : i.wf .one = true) (henc : encode i = .tw t)
    (h : exec i s = .next u) : perform (eventOf i) s = some u :=
  perform_eventOf_of_next henc (decodeTw_of_encode hwf henc) h

theorem perform_go {n : BitVec 7} (hn : n.toNat ≤ 64) {s u : State} (h : exec (.go n) s = .next u) :
    perform (eventOf (.go n)) s = some u :=
  perform_of_encode (by simp [Instr.wf, hn]) rfl h

/-- `WAIT` on an idle core is one poll. -/
theorem waitIdle_of_idle {s : State} (hidle : s.phase = .idle) (fuel : Nat) :
    waitIdle (fuel + 1) s = some (s.reply (statusWord s)) := by
  simp [waitIdle, State.busy, hidle]

/-- `WAIT` on a busy core is one poll and one turn of the Engine, again and again. -/
theorem waitIdle_of_busy {s t : State} (hbusy : s.phase ≠ .idle)
    (h : engineTurn (s.reply (statusWord s)) = .next t) (fuel : Nat) : waitIdle (fuel + 1) s = waitIdle fuel t := by
  simp [waitIdle, State.busy, hbusy, perform_engine_of_next h]

/-- `WAIT` gives a block just the turns it needs; only the record of reads grows besides. -/
theorem waitIdle_afterTurns {s : State} (hinit : s.phase = .init) (hq : s.q = 0) (es : List Event) (r : List Word)
    {fuel k : Nat} (hfuel : k + fuel = s.lanes.stepsPerBlock + 1) (hk : k ≤ s.lanes.stepsPerBlock) :
    ∃ r', waitIdle fuel { afterTurns s k with script := es, reads := r } =
      some { afterTurns s s.lanes.stepsPerBlock with script := es, reads := r' } := by
  induction fuel generalizing k r with
  | zero => omega
  | succ fuel ih =>
    have hidle := afterTurns_idle_iff hinit hk
    by_cases hlast : k = s.lanes.stepsPerBlock
    · subst hlast
      exact ⟨_, waitIdle_of_idle (s := { afterTurns s s.lanes.stepsPerBlock with script := es, reads := r })
        (hidle.mpr rfl) fuel⟩
    · obtain ⟨r', hwait⟩ := ih (statusWord { afterTurns s k with script := es, reads := r } :: r) (k := k + 1)
        (by omega) (by omega)
      have hturn := engineTurn_afterTurns_withScriptReads hinit hq es
        (statusWord { afterTurns s k with script := es, reads := r } :: r) (show k < s.lanes.stepsPerBlock by omega)
      exact ⟨r', (waitIdle_of_busy (s := { afterTurns s k with script := es, reads := r }) (mt hidle.mp hlast) hturn
        fuel).trans hwait⟩

/-- `WAIT` after an accepted GO ends with the block done. -/
theorem waitIdle_blockStarted (n : BitVec 7) (s : State) :
    ∃ r, waitIdle (waitFuel (blockStarted n s)) (blockStarted n s) = some { blockDone n s with reads := r } := by
  obtain ⟨r, hwait⟩ := waitIdle_afterTurns (s := blockStarted n s) rfl rfl s.script s.reads
    (Nat.zero_add (waitFuel (blockStarted n s))) (Nat.zero_le _)
  have hdone : afterTurns (blockStarted n s) (blockStarted n s).lanes.stepsPerBlock = blockDone n s :=
    afterTurns_blockStarted n s
  rw [hdone] at hwait
  exact ⟨r, hwait⟩

/-- LOADBLK and GO: the bytes stand in `DIN` when GO runs its checks. -/
theorem issue_loadBlk_go {s : State} (herr : s.errcode = 0) (hidle : s.phase = .idle) {d : List Byte}
    (hlen : d.length ≤ 64) :
    ∃ din : Words16, (∀ p < d.length, fileByte din p = d.getD p 0) ∧
      issue (loadBlk d ++ [.go (BitVec.ofNat 7 d.length)]) s =
        some (startBlock (BitVec.ofNat 7 d.length) { s with din := din }) := by
  have hn : (BitVec.ofNat 7 d.length).toNat ≤ 64 := by rw [BitVec.toNat_ofNat]; omega
  refine ⟨_, fun p hp => fileByte_blockWritten s.din hlen hp, ?_⟩
  rw [issue_append, issue_loadBlk herr hidle, Option.bind_some, issue_singleton]
  exact perform_go hn (exec_go_of_ready herr hidle hn)

/-- `WAIT` and the check for a fault on a core that GO has locked: the sequence stops (R162). -/
theorem waitIdle_checkFault_of_locked {s : State} (hidle : s.phase = .idle) (herr : s.errcode ≠ 0) (out : List Byte)
    (go : State → Option (State × Delivered)) :
    ((waitIdle (waitFuel s) s).bind fun t => checkFault out t go) =
      some ((s.reply (statusWord s)).reply (statusWord (s.reply (statusWord s))), ⟨out, some s.errcode⟩) := by
  rw [waitFuel, waitIdle_of_idle hidle, Option.bind_some, checkFault_eq, reply_errcode, if_neg herr]

/-- READBLK of a finished block returns its data XORed with the block's keystream. -/
theorem readBlkBytes_outputWords {din : Words16} {d : List Byte} (hlen : d.length ≤ 64)
    (hdin : ∀ p < d.length, fileByte din p = d.getD p 0) (key nonce : List Byte) (c : Word) :
    readBlkBytes d.length ((blockRegs d.length).map
      ((outputWords din (blockWords (keyWords key) c (nonceWords nonce)) d.length)[·])) =
        xorBytes d (block key c nonce) := by
  have hks : (block key c nonce).length = 64 := block_length key nonce c
  rw [readBlkBytes_blockRegs hlen]
  apply List.ext_getElem
  · rw [xorBytes_length, List.length_map, List.length_range]
    omega
  · intro p hp _
    have hp' : p < d.length := by simpa using hp
    rw [List.getElem_map, List.getElem_range, fileByte_outputWords_blockWords _ _ _ _ hlen hp', hdin p hp',
      List.getD_eq_getElem _ _ hp', List.getD_eq_getElem _ _ (by omega)]
    exact List.getElem_zipWith.symm

/-! ### The loop of the sequence (R161, R162) -/

/-- A round of the loop that meets no fault delivers what READBLK reads. -/
theorem processLoop_cons_of_next {d : List Byte} {s s1 s2 : State}
    (hissue : issue (loadBlk d ++ [.go (BitVec.ofNat 7 d.length)]) s = some s1)
    (hwait : waitIdle (waitFuel s1) s1 = some s2) (herr : s2.errcode = 0) (ds : List (List Byte)) (out : List Byte) :
    ∃ r, processLoop (d :: ds) out s = processLoop ds
      (out ++ readBlkBytes d.length ((blockRegs d.length).map (s2.dout[·]))) { s2 with reads := r } := by
  have hread : ((((blockRegs d.length).map (s2.dout[·])).reverse ++ statusWord s2 :: s2.reads).take
      (blockRegs d.length).length).reverse = (blockRegs d.length).map (s2.dout[·]) := by
    rw [List.take_left' (by simp), List.reverse_reverse]
  rw [processLoop, hissue, Option.bind_some, hwait, Option.bind_some, checkFault_eq, if_pos herr, issue_readBlk,
    Option.bind_some]
  simp only [reply_dout, reply_reads, hread]
  exact ⟨_, rfl⟩

/-- A round whose GO raises a fault stops the sequence with the output so far (R162). -/
theorem processLoop_cons_of_fault {d : List Byte} {s : State} {f : FaultCode} (herr : s.errcode = 0)
    (hidle : s.phase = .idle) (hlen : d.length ≤ 64)
    (hfault : ∀ din, startBlock (BitVec.ofNat 7 d.length) { s with din := din } =
      State.raiseFault f { s with din := din })
    (ds : List (List Byte)) (out : List Byte) :
    ∃ t, processLoop (d :: ds) out s = some (t, ⟨out, some f.code⟩) ∧ t.errcode = f.code ∧ t.ctr = s.ctr ∧
      t.ctrOvf = s.ctrOvf := by
  obtain ⟨din, -, hissue⟩ := issue_loadBlk_go herr hidle hlen
  rw [processLoop, hissue, Option.bind_some, hfault, waitIdle_checkFault_of_locked rfl f.code_ne_zero]
  exact ⟨_, rfl, rfl, rfl, rfl⟩

/-- The core between two blocks of the sequence: idle, unlocked, key and nonce loaded, `CTR` at the next counter. -/
structure ReadyFor (key nonce : List Byte) (c : Word) (s : State) : Prop where
  idle : s.phase = .idle
  unlocked : s.errcode = 0
  keyCnt : s.keyCnt = 32
  nonceCnt : s.nonceCnt = 12
  key : s.key = keyWords key
  nonce : s.nonce = nonceWords nonce
  ctr : s.ctr = c

/-- The length of a block fits the field of GO. -/
theorem ofNat_length_ne_zero {n : Nat} (hpos : 1 ≤ n) (hle : n ≤ 64) : BitVec.ofNat 7 n ≠ 0 := by
  intro h
  have hn : n % 2 ^ 7 = 0 := (BitVec.toNat_ofNat n 7).symm.trans (congrArg BitVec.toNat h)
  omega

/-- A round whose GO is accepted delivers one block of the output and leaves the core ready for the next. -/
theorem processLoop_cons_of_accepted {key nonce : List Byte} {c : Word} {s : State} (hs : ReadyFor key nonce c s)
    (hovf : s.ctrOvf = false) {d : List Byte} (hpos : 1 ≤ d.length) (hlen : d.length ≤ 64) (ds : List (List Byte))
    (out : List Byte) :
    ∃ t, processLoop (d :: ds) out s = processLoop ds (out ++ xorBytes d (block key c nonce)) t ∧
      ReadyFor key nonce (inc c) t ∧ t.ctrOvf = wrap c := by
  obtain ⟨hidle, herr, hkeyCnt, hnonceCnt, hkey, hnonce, hctr⟩ := hs
  have hn : (BitVec.ofNat 7 d.length).toNat = d.length := by rw [BitVec.toNat_ofNat]; omega
  obtain ⟨din, hdin, hissue⟩ := issue_loadBlk_go herr hidle hlen
  rw [startBlock_of_accepted (s := { s with din := din }) hkeyCnt hnonceCnt
    (ofNat_length_ne_zero hpos hlen) hovf] at hissue
  obtain ⟨r, hwait⟩ := waitIdle_blockStarted (BitVec.ofNat 7 d.length) { s with din := din }
  obtain ⟨r', hround⟩ := processLoop_cons_of_next hissue hwait herr ds out
  have hdata := readBlkBytes_outputWords hlen hdin key nonce c
  simp only [blockDone, hn, hkey, hnonce, hctr, hdata] at hround
  exact ⟨_, hround, ⟨rfl, herr, hkeyCnt, hnonceCnt, rfl, rfl, rfl⟩, rfl⟩

/-- `CTR` after one more block, and whether it has wrapped (R154). -/
theorem inc_add_ofNat (c : Word) (m : Nat) : inc (c + BitVec.ofNat 32 m) = c + BitVec.ofNat 32 (m + 1) := by
  rw [inc, BitVec.ofNat_add, BitVec.add_assoc]
  rfl

@[inherit_doc inc_add_ofNat] theorem wrap_add_ofNat {c : Word} {m : Nat} (h : c.toNat + m < 2 ^ 32) :
    wrap (c + BitVec.ofNat 32 m) = decide (c.toNat + (m + 1) = 2 ^ 32) := by
  have hsum : (c + BitVec.ofNat 32 m).toNat = c.toNat + m := by
    rw [BitVec.toNat_add, BitVec.toNat_ofNat]
    omega
  rw [wrap, Bool.beq_eq_decide_eq, decide_eq_decide, ← BitVec.toNat_inj, hsum]
  show c.toNat + m = 2 ^ 32 - 1 ↔ _
  omega

theorem chunk_length (data : List Byte) (b : Nat) : (chunk data b).length = min 64 (data.length - 64 * b) := by
  rw [chunk, List.length_take, List.length_drop]

/-- Every block of a message has 1 to 64 bytes. -/
theorem chunk_length_bounds {data : List Byte} {b : Nat} (hb : b < blockCount data.length) :
    1 ≤ (chunk data b).length ∧ (chunk data b).length ≤ 64 := by
  rw [chunk_length]
  rw [blockCount] at hb
  omega

/-- As long as the counter has not passed `0xFFFFFFFF` the loop delivers block after block (R161, R162). -/
theorem processLoop_firstBlocks {key nonce : List Byte} {c : Word} {s : State} (hs : ReadyFor key nonce c s)
    (hovf : s.ctrOvf = false) (data : List Byte) {m : Nat} (hm : m ≤ blockCount data.length)
    (hdom : c.toNat + m ≤ 2 ^ 32) (ds : List (List Byte)) :
    ∃ t, processLoop ((List.range m).map (chunk data) ++ ds) [] s =
        processLoop ds (firstBlocks key nonce c data m) t ∧
      ReadyFor key nonce (c + BitVec.ofNat 32 m) t ∧ t.ctrOvf = decide (c.toNat + m = 2 ^ 32) := by
  induction m generalizing ds with
  | zero =>
    have hno : ¬ c.toNat + 0 = 2 ^ 32 := by have := c.isLt; omega
    exact ⟨s, rfl, (BitVec.add_zero c).symm ▸ hs, hovf.trans (decide_eq_false hno).symm⟩
  | succ m ih =>
    obtain ⟨t, hloop, ht, htovf⟩ := ih (by omega) (by omega) (chunk data m :: ds)
    have hnot : t.ctrOvf = false := htovf.trans (decide_eq_false (by omega))
    obtain ⟨hpos, hlen⟩ := chunk_length_bounds (show m < blockCount data.length by omega)
    obtain ⟨u, hround, hu, huovf⟩ :=
      processLoop_cons_of_accepted ht hnot hpos hlen ds (firstBlocks key nonce c data m)
    rw [inc_add_ofNat] at hu
    rw [wrap_add_ofNat (by omega)] at huovf
    refine ⟨u, ?_, hu, huovf⟩
    rw [List.range_succ, List.map_append, List.append_assoc, firstBlocks_succ, ← hround]
    exact hloop

/-! ### The whole sequence (R161, R162) -/

/-- The core after CLR, LOADKEY, LOADNONCE and SETCTR. -/
def sequenceStart (key nonce : List Byte) (c0 : Word) (s : State) : State :=
  putCounter c0 (nonceLoaded (keyLoaded s.clearAll key) nonce)

theorem issue_sequenceStart (key nonce : List Byte) (c0 : Word) (s : State) :
    issue (.clr :: loadKey key ++ loadNonce nonce ++ [.setctr c0]) s = some (sequenceStart key nonce c0 s) := by
  have hclr : perform (eventOf .clr) s = some s.clearAll := perform_of_encode rfl rfl rfl
  have hkey : issue (loadKey key) s.clearAll = some (keyLoaded s.clearAll key) := issue_loadKey rfl rfl rfl key
  have hnonce : issue (loadNonce nonce) (keyLoaded s.clearAll key) =
      some (nonceLoaded (keyLoaded s.clearAll key) nonce) := issue_loadNonce rfl rfl rfl nonce
  have hctr : perform (eventOf (.setctr c0)) (nonceLoaded (keyLoaded s.clearAll key) nonce) =
      some (sequenceStart key nonce c0 s) := perform_of_encode rfl rfl rfl
  rw [show Instr.clr :: loadKey key = [.clr] ++ loadKey key from rfl, issue_append, issue_append, issue_append,
    issue_singleton, hclr, Option.bind_some, hkey, Option.bind_some, hnonce, Option.bind_some, issue_singleton, hctr]

section
variable {key nonce : List Byte} (c0 : Word) (s : State)

/-- The count of key bytes is 32 only for a key of 32 bytes. -/
theorem sequenceStart_keyCnt : (sequenceStart key nonce c0 s).keyCnt = 32 ↔ key.length = 32 := by
  show BitVec.ofNat 6 (min key.length 33) = 32 ↔ _
  rw [← BitVec.toNat_inj, BitVec.toNat_ofNat]
  show _ = 32 ↔ _
  omega

theorem sequenceStart_nonceCnt : (sequenceStart key nonce c0 s).nonceCnt = 12 ↔ nonce.length = 12 := by
  show BitVec.ofNat 4 (min nonce.length 13) = 12 ↔ _
  rw [← BitVec.toNat_inj, BitVec.toNat_ofNat]
  show _ = 12 ↔ _
  omega

theorem readyFor_sequenceStart (hkey : key.length = 32) (hnonce : nonce.length = 12) :
    ReadyFor key nonce c0 (sequenceStart key nonce c0 s) where
  idle := rfl
  unlocked := rfl
  keyCnt := (sequenceStart_keyCnt c0 s).mpr hkey
  nonceCnt := (sequenceStart_nonceCnt c0 s).mpr hnonce
  key := putFileBytes_eq_le32_words _ hkey
  nonce := putFileBytes_eq_le32_words _ hnonce
  ctr := rfl

end

/-- Counter and length are in the domain of R152 when the counter behind the last block is at most `2^32`. -/
theorem inDomain_iff (c : Word) (len : Nat) : inDomain c len = true ↔ c.toNat + blockCount len ≤ 2 ^ 32 := by
  have hc := c.isLt
  rw [inDomain, Bool.or_eq_true, beq_iff_eq, decide_eq_true_iff, blockCount]
  omega

theorem blockCount_pos {data : List Byte} (h : data ≠ []) : 0 < blockCount data.length := by
  have hlen := List.length_pos_of_ne_nil h
  rw [blockCount]
  omega

/-- The blocks of a message, cut at block `m`. -/
theorem chunks_eq_append_cons {data : List Byte} {m : Nat} (hm : m < blockCount data.length) :
    ∃ ds, chunks data = (List.range m).map (chunk data) ++ chunk data m :: ds := by
  obtain ⟨k, hk⟩ := Nat.exists_eq_add_of_lt hm
  rw [chunks, hk, Nat.add_assoc, List.range_add, List.map_append, List.range_succ_eq_map, List.map_cons, List.map_cons]
  exact ⟨_, rfl⟩

section
variable (key nonce : List Byte) (c0 : Word) (s : State)

/-- The sequence for an empty message: one `GO 0` and the check (R161). -/
theorem processSequence_nil : processSequence key nonce c0 [] s =
    checkFault [] (startBlock 0 (sequenceStart key nonce c0 s)) fun t => some (t, ⟨[], none⟩) := by
  have hgo : perform (eventOf (.go 0)) (sequenceStart key nonce c0 s) =
      some (startBlock 0 (sequenceStart key nonce c0 s)) :=
    perform_go (by decide) (exec_go_of_ready rfl rfl (by decide))
  rw [processSequence, issue_sequenceStart, Option.bind_some, if_pos rfl, issue_singleton, hgo, Option.bind_some]

/-- The sequence for any other message: the loop over its blocks (R161). -/
theorem processSequence_of_ne_nil {data : List Byte} (hdata : data ≠ []) :
    processSequence key nonce c0 data s = processLoop (chunks data) [] (sequenceStart key nonce c0 s) := by
  rw [processSequence, issue_sequenceStart, Option.bind_some, if_neg hdata]

/-- If every GO raises a fault, the sequence stops on the first, without output and with `CTR` as written. -/
theorem processSequence_of_fault {f : FaultCode} (hfault : ∀ n din, startBlock n { sequenceStart key nonce c0 s with
    din := din } = State.raiseFault f { sequenceStart key nonce c0 s with din := din }) (data : List Byte) :
    ∃ t, processSequence key nonce c0 data s = some (t, ⟨[], some f.code⟩) ∧ t.errcode = f.code ∧ t.ctr = c0 := by
  by_cases hdata : data = []
  · subst hdata
    have hgo : startBlock 0 (sequenceStart key nonce c0 s) = (sequenceStart key nonce c0 s).raiseFault f := hfault 0 _
    have herr : ((sequenceStart key nonce c0 s).raiseFault f).errcode ≠ 0 := f.code_ne_zero
    rw [processSequence_nil, hgo, checkFault_eq, if_neg herr]
    exact ⟨_, rfl, rfl, rfl⟩
  · obtain ⟨ds, hchunks⟩ := chunks_eq_append_cons (blockCount_pos hdata)
    obtain ⟨t, hloop, herr, hctr, -⟩ := processLoop_cons_of_fault (s := sequenceStart key nonce c0 s) rfl rfl
      (chunk_length_bounds (blockCount_pos hdata)).2 (hfault _) ds []
    rw [processSequence_of_ne_nil _ _ _ _ hdata, hchunks]
    exact ⟨t, hloop, herr, hctr⟩

end

/-- In the domain the sequence delivers every block (R161). -/
theorem processSequence_of_inDomain {key nonce : List Byte} {c0 : Word} {data : List Byte} (s : State)
    (hkey : key.length = 32) (hnonce : nonce.length = 12) (hdom : inDomain c0 data.length = true) :
    ∃ t, processSequence key nonce c0 data s = some (t, ⟨processBytes key nonce c0 data, none⟩) ∧ t.errcode = 0 := by
  have hs := readyFor_sequenceStart c0 s hkey hnonce
  by_cases hdata : data = []
  · subst hdata
    rw [processSequence_nil, startBlock_of_empty hs.keyCnt hs.nonceCnt, checkFault_eq, if_pos hs.unlocked]
    exact ⟨_, rfl, rfl⟩
  · obtain ⟨t, hloop, ht, -⟩ :=
      processLoop_firstBlocks hs rfl data le_rfl ((inDomain_iff c0 data.length).mp hdom) []
    rw [List.append_nil] at hloop
    rw [processSequence_of_ne_nil _ _ _ _ hdata]
    exact ⟨t, hloop, ht.unlocked⟩

/-- Settles O47: the loop in the domain; a wrong length makes every GO raise its fault, the key's first. -/
theorem processSequenceComputesProcess : Obligations.ProcessSequenceComputesProcess := by
  unfold Obligations.ProcessSequenceComputesProcess
  intro s key nonce c0 data
  refine ⟨fun hkey hnonce hdom => ?_, fun hkey => ?_, fun hkey hnonce => ?_⟩
  · obtain ⟨t, hseq, herr⟩ := processSequence_of_inDomain s hkey hnonce hdom
    exact ⟨t, _, hseq, herr, process_of_inDomain key nonce c0 hkey hnonce hdom⟩
  · have hcnt := mt (sequenceStart_keyCnt c0 s (nonce := nonce)).mp hkey
    exact processSequence_of_fault key nonce c0 s (f := .invalidKeyLength)
      (fun _ _ => startBlock_of_wrong_key hcnt) data
  · have hcnt := (sequenceStart_keyCnt c0 s (nonce := nonce)).mpr hkey
    have hnonceCnt := mt (sequenceStart_nonceCnt c0 s (key := key)).mp hnonce
    exact processSequence_of_fault key nonce c0 s (f := .invalidNonceLength)
      (fun _ _ => startBlock_of_wrong_nonce hcnt hnonceCnt) data

theorem blockCount_length_take {data : List Byte} {m : Nat} (h : 64 * m ≤ data.length) :
    blockCount (data.take (64 * m)).length = m := by
  rw [List.length_take, min_eq_left h, blockCount]
  omega

/-- The first `m` blocks of a message that has as many are `Process` of its first `64 m` bytes. -/
theorem processBytes_take (key nonce : List Byte) (c : Word) {data : List Byte} {m : Nat} (h : 64 * m ≤ data.length) :
    processBytes key nonce c (data.take (64 * m)) = firstBlocks key nonce c data m := by
  rw [processBytes_eq_xorBytes, blockCount_length_take h, firstBlocks_eq_xorBytes,
    xorBytes_take _ _ (keystream_length ..).le]

/-- The loop delivers `m` blocks up to counter `0xFFFFFFFF`; if there is one more, its GO finds `CTR_OVF = 1` (R162). -/
theorem processSequence_of_wrap {key nonce : List Byte} {c0 : Word} {data : List Byte} (s : State)
    (hkey : key.length = 32) (hnonce : nonce.length = 12) {m : Nat} (hlast : c0.toNat + m = 2 ^ 32)
    (hmore : m < blockCount data.length) :
    ∃ t, processSequence key nonce c0 data s = some (t, ⟨firstBlocks key nonce c0 data m, some 3⟩) ∧ t.errcode = 3 ∧
      t.ctr = 0 ∧ t.ctrOvf = true := by
  have hne : data ≠ [] := by
    rintro rfl
    exact Nat.not_lt_zero m hmore
  obtain ⟨hpos, hlen⟩ := chunk_length_bounds hmore
  obtain ⟨ds, hchunks⟩ := chunks_eq_append_cons hmore
  obtain ⟨t, hloop, ht, htovf⟩ := processLoop_firstBlocks (readyFor_sequenceStart c0 s hkey hnonce) rfl data hmore.le
    hlast.le (chunk data m :: ds)
  have hovf : t.ctrOvf = true := htovf.trans (decide_eq_true hlast)
  have hzero : c0 + BitVec.ofNat 32 m = 0 := by
    apply BitVec.eq_of_toNat_eq
    rw [BitVec.toNat_add, BitVec.toNat_ofNat, Nat.add_mod_mod, hlast]
    rfl
  obtain ⟨u, hstop, herr, hctr, huovf⟩ := processLoop_cons_of_fault (f := .counterWrap) ht.unlocked ht.idle hlen
    (fun _ => startBlock_of_wrapped ht.keyCnt ht.nonceCnt (ofNat_length_ne_zero hpos hlen) hovf) ds
    (firstBlocks key nonce c0 data m)
  rw [processSequence_of_ne_nil _ _ _ _ hne, hchunks, hloop]
  exact ⟨u, hstop, herr, hctr.trans (ht.ctr.trans hzero), huovf.trans hovf⟩

/-- Settles O48: the first `2^32 - c0` blocks lie in the domain and are `Process` of their bytes. -/
theorem processSequenceStopsOnCounterWrap : Obligations.ProcessSequenceStopsOnCounterWrap := by
  unfold Obligations.ProcessSequenceStopsOnCounterWrap
  intro s key nonce c0 data hkey hnonce hdom
  obtain ⟨m, hm⟩ : ∃ m, m = 2 ^ 32 - c0.toNat := ⟨_, rfl⟩
  have hlast : c0.toNat + m = 2 ^ 32 := by have := c0.isLt; omega
  have hmore : m < blockCount data.length := by
    have hout := mt (inDomain_iff c0 data.length).mpr (Bool.eq_false_iff.mp hdom)
    omega
  have hbytes : 64 * m ≤ data.length := by rw [blockCount] at hmore; omega
  have htake : (data.take (64 * m)).length = 64 * m := by rw [List.length_take, min_eq_left hbytes]
  have hcount := blockCount_length_take hbytes
  have htakeDom : inDomain c0 (data.take (64 * m)).length = true := by rw [inDomain_iff, hcount]; exact hlast.le
  obtain ⟨t, hseq, herr, hctr, hovf⟩ := processSequence_of_wrap s hkey hnonce hlast hmore
  rw [← processBytes_take key nonce c0 hbytes] at hseq
  rw [← hm]
  exact ⟨t, _, hseq, process_of_inDomain key nonce c0 hkey hnonce htakeDom,
    (processBytes_length key nonce c0 _).trans htake, herr, hctr, hovf⟩

end Sys2Proof.Machine

/-! PROOFS. The family of 42_host_register_access.md: the words of the worked examples, every bit of `STATUS` and `LENS`,
the other reads, and what each write does in every state. -/

namespace Sys2Proof.Machine

/-! ### Words of the worked examples (R97, R180 to R190, R200 to R203) -/

/-- The control word of a well-formed Engine step decodes to it (O1). -/
theorem decodeEw_of_encode {L : Lanes} {i : Instr} {e : Ew} (hwf : i.wf L = true) (henc : encode i = .ew e) :
    decodeEw L e = .ok i := by
  have hdec := decodeOfEncode L i hwf
  rw [henc] at hdec
  exact hdec

/-- Settles O6: each word is the encoding of its instruction, which is well-formed. -/
theorem specWordsDecode : Obligations.SpecWordsDecode := by
  unfold Obligations.SpecWordsDecode
  have htw {i : Instr} {t : Tw} (hwf : i.wf .one = true) (henc : encode i = .tw t) := decodeTw_of_encode hwf henc
  have hew {i : Instr} {e : Ew} (hwf : i.wf .four = true) (henc : encode i = .ew e) := decodeEw_of_encode hwf henc
  exact ⟨htw rfl rfl, htw rfl rfl, htw rfl rfl, htw rfl rfl, htw rfl rfl, htw rfl rfl, htw rfl rfl, htw rfl rfl,
    htw rfl rfl, htw rfl rfl, htw rfl rfl, htw rfl rfl, htw rfl rfl, hew rfl rfl, hew rfl rfl, hew rfl rfl⟩

/-! ### The fields of `STATUS` and `LENS` (R40, R41) -/

/-- A field of a word, read where it stands. -/
theorem extractLsb'_field_same {w k : Nat} (x : BitVec w) (h : k + w ≤ 32) :
    (x.setWidth 32 <<< k).extractLsb' k w = x := by
  ext j hj
  have hlt : k + j < 32 := by omega
  simp [hj, hlt]

/-- A field of a word does not show in bits that lie below or above it. -/
theorem extractLsb'_field_disjoint {w k start len : Nat} (x : BitVec w) (h : start + len ≤ k ∨ k + w ≤ start) :
    (x.setWidth 32 <<< k).extractLsb' start len = 0#len := by
  ext j hj
  rcases h with hbelow | habove
  · have hlt : start + j < k := by omega
    simp [hlt]
  · have hzero : x.getLsbD (start + j - k) = false := BitVec.getLsbD_of_ge _ _ (by omega)
    simp [hzero]

section
variable (s : State)

theorem statusWord_valid : (statusWord s)[1] = s.valid := by simp [statusWord, bitAt]

theorem statusWord_ctrOvf : (statusWord s)[3] = s.ctrOvf := by simp [statusWord, bitAt]

/-- The bits of `STATUS` that lie between and above its fields. -/
theorem statusWord_reserved {start len : Nat} (h : 4 ≤ start ∧ start + len ≤ 8 ∨ 12 ≤ start) :
    (statusWord s).extractLsb' start len = 0#len := by
  have hflag (b : Bool) {k : Nat} (hk : k < 4) : (bitAt b k).extractLsb' start len = 0#len :=
    extractLsb'_field_disjoint _ (by omega)
  have hcode : (s.errcode.setWidth 32 <<< 8).extractLsb' start len = 0#len := extractLsb'_field_disjoint _ (by omega)
  simp (disch := decide) only [statusWord, BitVec.extractLsb'_or, hflag, hcode, BitVec.or_zero]

/-- A field of `LENS` is the union of what its three fields show there. -/
theorem lensWord_extractLsb' (start len : Nat) : (lensWord s).extractLsb' start len =
    (s.keyCnt.setWidth 32 <<< 0).extractLsb' start len ||| (s.nonceCnt.setWidth 32 <<< 8).extractLsb' start len |||
      (s.blen.setWidth 32 <<< 16).extractLsb' start len := by
  rw [lensWord, BitVec.extractLsb'_or, BitVec.extractLsb'_or, BitVec.shiftLeft_zero]

theorem lensWord_keyCnt : (lensWord s).extractLsb' 0 6 = s.keyCnt := by
  rw [lensWord_extractLsb', extractLsb'_field_same _ (by decide), extractLsb'_field_disjoint _ (by decide),
    extractLsb'_field_disjoint _ (by decide), BitVec.or_zero, BitVec.or_zero]

theorem lensWord_nonceCnt : (lensWord s).extractLsb' 8 4 = s.nonceCnt := by
  rw [lensWord_extractLsb', extractLsb'_field_disjoint _ (by decide), extractLsb'_field_same _ (by decide),
    extractLsb'_field_disjoint _ (by decide), BitVec.zero_or, BitVec.or_zero]

theorem lensWord_blen : (lensWord s).extractLsb' 16 7 = s.blen := by
  rw [lensWord_extractLsb', extractLsb'_field_disjoint _ (by decide), extractLsb'_field_disjoint _ (by decide),
    extractLsb'_field_same _ (by decide), BitVec.zero_or, BitVec.zero_or]

/-- The bits of `LENS` that lie between and above its fields. -/
theorem lensWord_reserved {start len : Nat}
    (h : 6 ≤ start ∧ start + len ≤ 8 ∨ 12 ≤ start ∧ start + len ≤ 16 ∨ 23 ≤ start) :
    (lensWord s).extractLsb' start len = 0#len := by
  rw [lensWord_extractLsb', extractLsb'_field_disjoint _ (by omega), extractLsb'_field_disjoint _ (by omega),
    extractLsb'_field_disjoint _ (by omega), BitVec.or_zero, BitVec.or_zero]

end

/-! ### Reads (R180 to R185) -/

/-- Settles O12: the word field by field; while a block runs the other flags are clear, and with a fault recorded the
core is idle with no valid result. -/
theorem rdstatReturnsTheFlags : Obligations.RdstatReturnsTheFlags := by
  unfold Obligations.RdstatReturnsTheFlags
  refine ⟨decodeTw_of_encode (i := .rdstat) rfl rfl, fun s => ⟨statusWord s, rfl, ?_⟩⟩
  have hbusy : (statusWord s).getLsbD 0 = decide (s.phase ≠ .idle) := by
    simp [State.busy, bne, Bool.beq_eq_decide_eq]
  have hvalid : (statusWord s).getLsbD 1 = s.valid := statusWord_valid s
  have herr : (statusWord s).getLsbD 2 = decide (s.errcode ≠ 0) := by
    simp [State.err, bne, Bool.beq_eq_decide_eq]
  have hovf : (statusWord s).getLsbD 3 = s.ctrOvf := statusWord_ctrOvf s
  refine ⟨hbusy, hvalid, herr, hovf, statusWord_reserved s (by decide), statusWord_errcode s,
    statusWord_reserved s (by decide), fun hs h => ?_, fun hs h => ?_⟩
  · rw [hbusy, decide_eq_true_eq] at h
    obtain ⟨hcode, hnotValid, hnotOvf, -⟩ := hs.busy_clean h
    exact ⟨hvalid.trans hnotValid, herr.trans (decide_eq_false (not_not_intro hcode)), hovf.trans hnotOvf⟩
  · rw [herr, decide_eq_true_eq] at h
    obtain ⟨hidle, hnotValid, -⟩ := hs.fault_clean h
    exact ⟨hbusy.trans (decide_eq_false (not_not_intro hidle)), hvalid.trans hnotValid⟩

/-- Settles O13: the word field by field. -/
theorem rdlensReturnsTheLengths : Obligations.RdlensReturnsTheLengths := by
  unfold Obligations.RdlensReturnsTheLengths
  exact ⟨decodeTw_of_encode (i := .rdlens) rfl rfl, fun s => ⟨lensWord s, rfl, lensWord_keyCnt s,
    lensWord_reserved s (by decide), lensWord_nonceCnt s, lensWord_reserved s (by decide), lensWord_blen s,
    lensWord_reserved s (by decide)⟩⟩

/-- Byte `j` of word `i` is byte `4i + j` of the file (R66). -/
theorem wordByte_getElem_eq_fileByte {n : Nat} (v : Vector Word n) (i : Fin n) {j : Nat} (hj : j < 4) :
    wordByte v[i] j = fileByte v (4 * i + j) := by
  have hdiv : (4 * i.val + j) / 4 = i := by omega
  have hmod : (4 * i.val + j) % 4 = j := by omega
  simp [fileByte, hdiv, hmod]

/-- `DOUT` is zero without a valid result, and in every word that lies beyond the block's bytes (R184, R45 (i)). -/
theorem CoreInv.dout_word_eq_zero {s : State} (hs : CoreInv s) {i : Fin 16}
    (h : s.valid = false ∨ (s.blen.toNat + 3) / 4 ≤ i.val) : s.dout[i] = 0 := by
  rcases h with hinvalid | hbeyond
  · rw [hs.invalid_zero hinvalid]
    exact zeros16_getElem i.isLt
  · apply word_eq_of_bytes
    intro j hj
    rw [wordByte_getElem_eq_fileByte _ _ hj, hs.dout_beyond _ (by omega)]
    exact (wordByte_zero j).symm

/-- Settles O14: each read replies with its register. -/
theorem counterAndDataReads : Obligations.CounterAndDataReads := by
  unfold Obligations.CounterAndDataReads
  refine ⟨fun _ => rfl, fun _ _ => rfl, fun _ _ => rfl, fun i s hs h => ?_, fun _ _ => rfl⟩
  have hreply : exec (.rddout i) s = .next (s.reply s.dout[i]) := rfl
  rw [hreply, hs.dout_word_eq_zero h]
  rfl

/-! ### Writes (R186 to R189, through the gate of R191) -/

section
variable {s : State} {f : State → State}

/-- A locked core ignores a gated write. -/
theorem next_gated_of_locked (herr : s.errcode ≠ 0) : (.next (gated f s) : Result) = .next s :=
  congrArg _ (gated_of_locked herr)

/-- A busy core answers a gated write with the fault entry of code 5 (R224, R226). -/
theorem next_gated_of_busy (herr : s.errcode = 0) (hbusy : s.phase ≠ .idle) : (.next (gated f s) : Result) =
    .next { s with errcode := 5, phase := .idle, q := 0, x := zeros16, dout := zeros16, valid := false } :=
  congrArg _ (gated_of_busy herr hbusy)

/-- An idle, unlocked core performs it. -/
theorem next_gated_of_ready (herr : s.errcode = 0) (hidle : s.phase = .idle) : (.next (gated f s) : Result) = .next (f s) :=
  congrArg _ (gated_of_ready herr hidle)

end

section
variable {s : State} (b : Byte)

theorem putKeyByte_of_lt (h : s.keyCnt.toNat < 32) :
    putKeyByte b s = { s with key := putFileByte s.key s.keyCnt.toNat b, keyCnt := s.keyCnt + 1 } := if_pos h

theorem putKeyByte_of_full (h : 32 ≤ s.keyCnt.toNat) : putKeyByte b s = { s with keyCnt := 33 } := if_neg h.not_gt

theorem putNonceByte_of_lt (h : s.nonceCnt.toNat < 12) :
    putNonceByte b s = { s with nonce := putFileByte s.nonce s.nonceCnt.toNat b, nonceCnt := s.nonceCnt + 1 } := if_pos h

theorem putNonceByte_of_full (h : 12 ≤ s.nonceCnt.toNat) : putNonceByte b s = { s with nonceCnt := 13 } := if_neg h.not_gt

end

/-- Settles O16: the gate, then the two cases of `KEY_CNT`; the byte is put at index `KEY_CNT` of the file. -/
theorem keybAppendsAKeyByte : Obligations.KeybAppendsAKeyByte := by
  unfold Obligations.KeybAppendsAKeyByte
  refine ⟨fun v => decodeTw_write 4 v, fun b s => next_gated_of_locked, fun b s => next_gated_of_busy,
    fun b s herr hidle hlt => ⟨putFileByte s.key s.keyCnt.toNat b, ?_, fun p hp => ?_⟩, fun b s herr hidle hfull => ?_⟩
  · exact (next_gated_of_ready herr hidle).trans (congrArg _ (putKeyByte_of_lt b hlt))
  · exact fileByte_putFileByte _ _ (by omega)
  · exact (next_gated_of_ready herr hidle).trans (congrArg _ (putKeyByte_of_full b hfull))

/-- Settles O17: the gate, then the two cases of `NONCE_CNT`; the byte is put at index `NONCE_CNT` of the file. -/
theorem noncebAppendsANonceByte : Obligations.NoncebAppendsANonceByte := by
  unfold Obligations.NoncebAppendsANonceByte
  refine ⟨fun v => decodeTw_write 5 v, fun b s => next_gated_of_locked, fun b s => next_gated_of_busy,
    fun b s herr hidle hlt => ⟨putFileByte s.nonce s.nonceCnt.toNat b, ?_, fun p hp => ?_⟩, fun b s herr hidle hfull => ?_⟩
  · exact (next_gated_of_ready herr hidle).trans (congrArg _ (putNonceByte_of_lt b hlt))
  · exact fileByte_putFileByte _ _ (by omega)
  · exact (next_gated_of_ready herr hidle).trans (congrArg _ (putNonceByte_of_full b hfull))

/-- Settles O20: the gate, then the write of `CTR` and `CTR_OVF`. -/
theorem setctrWritesTheCounter : Obligations.SetctrWritesTheCounter := by
  unfold Obligations.SetctrWritesTheCounter
  exact ⟨fun w => decodeTw_write 3 w, fun w s => next_gated_of_locked, fun w s => next_gated_of_busy,
    fun w s => next_gated_of_ready⟩

/-- The word index of `DIN[i]` is `16 + i` (R62). -/
theorem ofNat_add_eq_bankIndex (i : Fin 16) : BitVec.ofNat 7 (16 + i) = bankIndex 1 i := by
  revert i; decide

theorem decodeTw_din (i : Fin 16) (w : Word) : decodeTw (mkTw true (BitVec.ofNat 7 (16 + i)) w) = .din i w := by
  rw [ofNat_add_eq_bankIndex]
  exact decodeTw_of_encode rfl rfl

/-- Settles O21: the gate, then the write of one word. -/
theorem dinWritesOneWord : Obligations.DinWritesOneWord := by
  unfold Obligations.DinWritesOneWord
  refine ⟨decodeTw_din, fun i w s => next_gated_of_locked, fun i w s => next_gated_of_busy,
    fun i w s herr hidle => ⟨s.din.set i w, next_gated_of_ready herr hidle, fun j => ?_⟩⟩
  simp [Vector.getElem_set, Fin.ext_iff, eq_comm]

/-! ### Writes that are ignored and reads of zero (R63, R64, R190) -/

/-- `STATUS`, `LENS`, `DOUT` and the reserved indexes have no write of their own (R62, R63). -/
theorem not_writableIndex {widx : BitVec 7} :
    (widx = 1 ∨ widx = 2 ∨ (6 ≤ widx.toNat ∧ widx.toNat ≤ 15) ∨ 32 ≤ widx.toNat) → writableIndex widx = false := by
  revert widx; decide

/-- `CTRL`, `KEYB`, `NONCEB` and the reserved indexes have no read of their own (R62, R64). -/
theorem not_readableIndex {widx : BitVec 7} :
    (widx = 0 ∨ widx = 4 ∨ widx = 5 ∨ (6 ≤ widx.toNat ∧ widx.toNat ≤ 15) ∨ 48 ≤ widx.toNat) →
      readableIndex widx = false := by
  revert widx; decide

/-- Settles O22: the indexes are those of the catch-all rows WRIGN and RDZERO, which write no register. -/
theorem ignoredWritesAndZeroReads : Obligations.IgnoredWritesAndZeroReads := by
  unfold Obligations.IgnoredWritesAndZeroReads
  refine ⟨fun _ _ _ => rfl, fun widx v h => ?_, fun widx v s h => ?_⟩
  · have hwf : (Instr.wrign widx v).wf .one = true := by simp [Instr.wf, not_writableIndex h]
    exact decodeTw_of_encode hwf rfl
  · rw [decodeTw_read, decodeRead_of_not_readable (not_readableIndex h)]
    rfl

end Sys2Proof.Machine

/-! PROOFS. The family of 43_host_commands.md: what each command and each write to `CTRL` does in every state, and that a
`PROCESS` sequence forgets what the core held before. -/

namespace Sys2Proof.Machine

/-! ### The command words (R93, R200, R201, R203) -/

/-- A write to `CTRL` decodes as its command word. -/
theorem decodeTw_command (v : Word) : decodeTw (mkTw true 0 v) = decodeCommand v := decodeTw_write 0 v

/-- The word of `GO n` as an integer (R201). -/
theorem goTw_eq (n : BitVec 7) : (0x8000000001 + n.setWidth 40 * 256 : Tw) = writeTw 0 (goCommand n) := by
  revert n; decide

/-- A command word that is neither NOP nor CLR is GO or ILLCMD, so it goes through the gate (R204). -/
theorem exec_command_gated {v : Word} (h0 : v ≠ 0) (h2 : v ≠ 2) :
    ∃ f, ∀ s, exec (decodeTw (mkTw true 0 v)) s = .next (gated f s) := by
  rw [decodeTw_command]
  by_cases hgo : goWord v = true
  · rw [decodeCommand_of_goWord hgo]
    exact ⟨_, fun _ => rfl⟩
  · rw [(decodeCommand_eq_illcmd_iff v v).mpr
      ⟨rfl, (legalCommand_eq_false_iff v).mpr ⟨h0, h2, Bool.eq_false_iff.mpr hgo⟩⟩]
    exact ⟨_, fun _ => rfl⟩

/-- Settles O23: the word is the encoding of NOP, whose meaning is the state unchanged. -/
theorem nopChangesNothing : Obligations.NopChangesNothing := by
  unfold Obligations.NopChangesNothing
  exact ⟨decodeTw_of_encode (i := .nop) rfl rfl, fun _ => rfl⟩

/-- Settles O24: the gate, then the checks of R201 in their order. -/
theorem goChecksThenStartsTheBlock : Obligations.GoChecksThenStartsTheBlock := by
  unfold Obligations.GoChecksThenStartsTheBlock
  refine ⟨fun n hn => ?_, fun n s => next_gated_of_locked, fun n s => next_gated_of_busy, fun n s hn herr hidle => ?_⟩
  · rw [goTw_eq]
    exact decodeTw_of_encode (by simp [Instr.wf, hn]) rfl
  · rw [exec_go_of_ready herr hidle hn]
    refine ⟨fun hkey => ?_, fun hkey hnonce => ?_, fun hkey hnonce hzero => ?_, fun hkey hnonce hpos hovf => ?_,
      fun hkey hnonce hpos hovf => ?_⟩
    · exact congrArg _ (startBlock_of_wrong_key hkey)
    · exact congrArg _ (startBlock_of_wrong_nonce hkey hnonce)
    · subst hzero
      exact congrArg _ (startBlock_of_empty hkey hnonce)
    · exact congrArg _ (startBlock_of_wrapped hkey hnonce hpos hovf)
    · exact congrArg _ (startBlock_of_accepted hkey hnonce hpos hovf)

/-- Settles O25: the word by the rows of the command words, then the gate. -/
theorem illegalCommandWordFaults : Obligations.IllegalCommandWordFaults := by
  unfold Obligations.IllegalCommandWordFaults
  refine ⟨fun v h0 h2 hgo => ?_, fun v s => next_gated_of_ready, fun v s => next_gated_of_busy,
    fun v s => next_gated_of_locked⟩
  obtain ⟨-, -, -, hillcmd⟩ := commandWordsDecode v
  exact (decodeTw_command v).trans ((hillcmd v).mpr ⟨rfl, h0, h2, hgo⟩)

/-- Settles O26: NOP and CLR by their words, the gate for every other word, then ILLCMD or GO. -/
theorem controlWritesAreHandledInOrder : Obligations.ControlWritesAreHandledInOrder := by
  unfold Obligations.ControlWritesAreHandledInOrder
  obtain ⟨hword, hillegal, -, -⟩ := illegalCommandWordFaults
  intro v s
  refine ⟨fun hv => ?_, fun hv => ?_, fun h0 h2 herr => ?_, fun h0 h2 herr hbusy => ?_,
    fun h0 h2 herr hidle hgo => ?_, fun _ _ hgo => ?_⟩
  · rw [decodeTw_command, (decodeCommand_eq_clr_iff v).mpr hv]
    rfl
  · rw [decodeTw_command, (decodeCommand_eq_nop_iff v).mpr hv]
    rfl
  · obtain ⟨f, hgated⟩ := exec_command_gated h0 h2
    exact (hgated s).trans (next_gated_of_locked herr)
  · obtain ⟨f, hgated⟩ := exec_command_gated h0 h2
    exact (hgated s).trans (next_gated_of_busy herr hbusy)
  · rw [hword v h0 h2 hgo]
    exact hillegal v s herr hidle
  · have hlen : BitVec.ofNat 7 (v.toNat / 256 % 128) = blenField v := by
      rw [← blenField_toNat, BitVec.ofNat_toNat, BitVec.setWidth_eq]
    rw [decodeTw_command, decodeCommand_of_goWord ((goWord_iff v).mpr hgo), hlen]

/-! ### The core without the model's own record (logs 2, 4) -/

/-- The state with the script and the record of reads, which are the model's own, set aside. -/
def State.coreOnly (s : State) : State := { s with script := [], reads := [] }

/-- The core that a step leaves, if it answers a next state. -/
def nextCore : Result → Option State
  | .next t => some t.coreOnly
  | .fault _ => none
  | .refused _ => none

section
variable (s : State)

theorem putKeyByte_coreOnly (b : Byte) : (putKeyByte b s).coreOnly = (putKeyByte b s.coreOnly).coreOnly := by
  dsimp only [putKeyByte, State.coreOnly]
  split_ifs <;> rfl

theorem putNonceByte_coreOnly (b : Byte) : (putNonceByte b s).coreOnly = (putNonceByte b s.coreOnly).coreOnly := by
  dsimp only [putNonceByte, State.coreOnly]
  split_ifs <;> rfl

theorem startBlock_coreOnly (n : BitVec 7) : (startBlock n s).coreOnly = (startBlock n s.coreOnly).coreOnly := by
  dsimp only [startBlock, State.coreOnly]
  split_ifs <;> rfl

theorem performGo_coreOnly (n : BitVec 7) : (performGo n s).coreOnly = (performGo n s.coreOnly).coreOnly := by
  rw [performGo, performGo]
  split_ifs
  · exact startBlock_coreOnly s n
  · rfl

/-- The gate looks at no more of the state than the core. -/
theorem nextCore_gated {f : State → State} (hf : (f s).coreOnly = (f s.coreOnly).coreOnly) :
    nextCore (.next (gated f s)) = nextCore (.next (gated f s.coreOnly)) := by
  rcases gated_cases f s with ⟨herr, hgate⟩ | ⟨herr, hbusy, hgate⟩ | ⟨herr, hidle, hgate⟩
  · rw [hgate, gated_of_locked (s := s.coreOnly) herr]
    rfl
  · rw [hgate, gated_of_busy (s := s.coreOnly) herr hbusy]
    rfl
  · rw [hgate, gated_of_ready (s := s.coreOnly) herr hidle]
    exact congrArg some hf

/-- An instruction finds in the script and in the record of reads nothing that shows in the core (R69). -/
theorem nextCore_exec (i : Instr) : nextCore (exec i s) = nextCore (exec i s.coreOnly) := by
  cases i with
  | keyb b => exact nextCore_gated s (putKeyByte_coreOnly s b)
  | nonceb b => exact nextCore_gated s (putNonceByte_coreOnly s b)
  | setctr w => exact nextCore_gated s rfl
  | din k w => exact nextCore_gated s rfl
  | go n => exact nextCore_gated s (performGo_coreOnly s n)
  | illcmd v => exact nextCore_gated s rfl
  | einit | eqr _ | efinal =>
    dsimp only [exec, execEinit, execEqr, execEfinal, State.coreOnly]
    split_ifs <;> rfl
  | rdstat | rdlens | rdctr | rddin _ | rddout _ | rdzero _ | nop | clr | wrign _ _ => rfl

theorem nextCore_engineTurn : nextCore (engineTurn s) = nextCore (engineTurn s.coreOnly) := by
  by_cases hidle : s.phase = .idle
  · rw [engineTurn_idle hidle, engineTurn_idle (s := s.coreOnly) hidle]
    rfl
  · cases hdec : decode s.lanes (.ew (engineWord s)) with
    | ok i =>
      rw [engineTurn_of_decode hidle hdec, engineTurn_of_decode (s := s.coreOnly) hidle hdec]
      exact nextCore_exec s i
    | error e =>
      rw [engineTurn_of_reject hidle hdec, engineTurn_of_reject (s := s.coreOnly) hidle hdec]

/-! ### The Host's operations on the core (R101, R161) -/

/-- What the Host performs next is one event, whatever else stands in the script. -/
theorem perform_map_coreOnly (e : Event) : (perform e s).map State.coreOnly = nextCore (runEvent e s) := by
  have hstep : step { s with script := e :: s.script } = runEvent e s := rfl
  rw [perform, hstep]
  cases runEvent e s <;> rfl

theorem perform_coreOnly (e : Event) :
    (perform e s).map State.coreOnly = (perform e s.coreOnly).map State.coreOnly := by
  rw [perform_map_coreOnly, perform_map_coreOnly]
  cases e with
  | access t => exact nextCore_exec s (decodeTw t)
  | engine => exact nextCore_engineTurn s
  | reset => rfl

end

/-- What goes on from a state without regard to the model's record may go on from its core. -/
theorem bind_map_of_coreOnly {α β : Type} {a b : Option State} (hab : a.map State.coreOnly = b.map State.coreOnly)
    {f : State → Option α} {g : α → β} (hf : ∀ t, (f t).map g = (f t.coreOnly).map g) :
    (a.bind f).map g = (b.bind f).map g := by
  have hcore (a : Option State) : (a.bind f).map g = ((a.map State.coreOnly).bind f).map g := by
    cases a with
    | none => rfl
    | some t => exact hf t
  rw [hcore a, hab, ← hcore b]

theorem issue_coreOnly (is : List Instr) (s : State) :
    (issue is s).map State.coreOnly = (issue is s.coreOnly).map State.coreOnly := by
  induction is generalizing s with
  | nil => rfl
  | cons i is ih => exact bind_map_of_coreOnly (perform_coreOnly s (eventOf i)) ih

/-- One poll of `WAIT`, and a turn of the Engine where it finds `BUSY` set (R101). -/
theorem waitIdle_succ (fuel : Nat) (s : State) : waitIdle (fuel + 1) s =
    if s.phase = .idle then some (s.reply (statusWord s))
    else (perform .engine (s.reply (statusWord s))).bind (waitIdle fuel) := by
  by_cases hidle : s.phase = .idle <;> simp [waitIdle, State.busy, hidle]

theorem waitIdle_coreOnly (fuel : Nat) (s : State) :
    (waitIdle fuel s).map State.coreOnly = (waitIdle fuel s.coreOnly).map State.coreOnly := by
  induction fuel generalizing s with
  | zero => rfl
  | succ fuel ih =>
    have hturn (t : State) (v : Word) : (perform .engine (t.reply v)).map State.coreOnly =
        (perform .engine t.coreOnly).map State.coreOnly := perform_coreOnly (t.reply v) .engine
    have hphase : s.coreOnly.phase = s.phase := rfl
    rw [waitIdle_succ, waitIdle_succ, hphase]
    split_ifs with hidle
    · rfl
    · exact bind_map_of_coreOnly ((hturn s _).trans (hturn s.coreOnly _).symm) ih

/-! ### The `PROCESS` sequence on the core (R161, R202, R254) -/

/-- What the sequence leaves: the core, and what is in the Host's hands. -/
def coreAndDelivered (r : State × Delivered) : State × Delivered := (r.1.coreOnly, r.2)

/-- The check for a fault reads the core only. -/
theorem checkFault_coreOnly (out : List Byte) {s : State} {go : State → Option (State × Delivered)}
    (hgo : (go (s.reply (statusWord s))).map coreAndDelivered =
      (go (s.coreOnly.reply (statusWord s))).map coreAndDelivered) :
    (checkFault out s go).map coreAndDelivered = (checkFault out s.coreOnly go).map coreAndDelivered := by
  have hstatus : statusWord s.coreOnly = statusWord s := rfl
  have herr : s.coreOnly.errcode = s.errcode := rfl
  rw [checkFault_eq, checkFault_eq, hstatus, herr]
  split_ifs
  · exact hgo
  · rfl

/-- READBLK hands on words of `DOUT`, whatever was read before (R101). -/
theorem readBlk_coreOnly {go : List Word → State → Option (State × Delivered)}
    (hgo : ∀ ws t, (go ws t).map coreAndDelivered = (go ws t.coreOnly).map coreAndDelivered) (n : Nat) (s : State) :
    ((issue (readBlk n) s).bind fun t => go (t.reads.take (blockRegs n).length).reverse t).map coreAndDelivered =
      (go ((blockRegs n).map (s.dout[·])) s.coreOnly).map coreAndDelivered := by
  have hwords : ((((blockRegs n).map (s.dout[·])).reverse ++ s.reads).take (blockRegs n).length).reverse =
      (blockRegs n).map (s.dout[·]) := by
    rw [List.take_left' (by simp), List.reverse_reverse]
  rw [issue_readBlk, Option.bind_some, hwords]
  exact hgo _ _

theorem processLoop_coreOnly (ds : List (List Byte)) (out : List Byte) (s : State) :
    (processLoop ds out s).map coreAndDelivered = (processLoop ds out s.coreOnly).map coreAndDelivered := by
  induction ds generalizing out s with
  | nil => rfl
  | cons d ds ih =>
    refine bind_map_of_coreOnly (issue_coreOnly _ s) fun s1 => bind_map_of_coreOnly (waitIdle_coreOnly _ s1) fun s2 =>
      checkFault_coreOnly out ?_
    have hread := readBlk_coreOnly (go := fun ws => processLoop ds (out ++ readBlkBytes d.length ws)) (fun _ => ih _)
      d.length
    exact (hread (s2.reply (statusWord s2))).trans (hread (s2.coreOnly.reply (statusWord s2))).symm

/-- CLR leaves of a core only its `QR_LANES`, so the sequence starts alike on any two with the same (R202). -/
theorem sequenceStart_coreOnly_of_lanes (key nonce : List Byte) (c0 : Word) {s s' : State} (h : s.lanes = s'.lanes) :
    (sequenceStart key nonce c0 s).coreOnly = (sequenceStart key nonce c0 s').coreOnly := by
  have hclear : s.clearAll.coreOnly = s'.clearAll.coreOnly := by simp only [State.clearAll, State.coreOnly, h]
  have hstart (t : State) : (sequenceStart key nonce c0 t).coreOnly =
      (putCounter c0 (nonceLoaded (keyLoaded t.clearAll.coreOnly key) nonce)).coreOnly := rfl
  rw [hstart, hstart, hclear]

/-- Settles O49: after its CLR and loads the sequence goes on alike from any two states with the same core. -/
theorem processSequenceForgetsTheCore : Obligations.ProcessSequenceForgetsTheCore := by
  unfold Obligations.ProcessSequenceForgetsTheCore
  intro s s' key nonce c0 data hlanes
  have hloads : (issue (.clr :: loadKey key ++ loadNonce nonce ++ [.setctr c0]) s).map State.coreOnly =
      (issue (.clr :: loadKey key ++ loadNonce nonce ++ [.setctr c0]) s').map State.coreOnly := by
    rw [issue_sequenceStart, issue_sequenceStart]
    exact congrArg some (sequenceStart_coreOnly_of_lanes key nonce c0 hlanes)
  refine bind_map_of_coreOnly (g := coreAndDelivered) hloads fun t => ?_
  split_ifs
  · exact bind_map_of_coreOnly (issue_coreOnly _ t) fun u => checkFault_coreOnly [] rfl
  · exact processLoop_coreOnly _ [] t

end Sys2Proof.Machine

/-! PROOFS. The family of 60_exceptions.md: what records a fault and with which code, the lock, the ways out of it, and the
writers of `CTR`. -/

namespace Sys2Proof.Machine

/-! ### The instructions behind the gate (R191, R204, R224) -/

/-- The instructions that a locked core ignores and that a busy core answers with `BusyWrite`. -/
def isGatedWrite : Instr → Bool
  | .keyb _ | .nonceb _ | .setctr _ | .din _ _ | .go _ | .illcmd _ => true
  | .rdstat | .rdlens | .rdctr | .rddin _ | .rddout _ | .rdzero _ => false
  | .wrign _ _ | .nop | .clr | .einit | .eqr _ | .efinal => false

theorem isGatedWrite_iff (i : Instr) : isGatedWrite i = true ↔
    (∃ b, i = .keyb b) ∨ (∃ b, i = .nonceb b) ∨ (∃ w, i = .setctr w) ∨ (∃ k w, i = .din k w) ∨
      (∃ n, i = .go n) ∨ (∃ v, i = .illcmd v) := by
  cases i <;> simp [isGatedWrite]

/-- Each of them is some write through the gate. -/
theorem exec_isGatedWrite {i : Instr} (h : isGatedWrite i = true) : ∃ f, ∀ s, exec i s = .next (gated f s) := by
  rcases (isGatedWrite_iff i).mp h with ⟨b, rfl⟩ | ⟨b, rfl⟩ | ⟨w, rfl⟩ | ⟨k, w, rfl⟩ | ⟨n, rfl⟩ | ⟨v, rfl⟩
  all_goals exact ⟨_, fun _ => rfl⟩

/-- A write or a command that does not go through the gate is CLR or does nothing (R190, R200, R202). -/
theorem write_cases {i : Instr} (h : i.format = .wr ∨ i.format = .cmd) :
    isGatedWrite i = true ∨ i = .clr ∨ ∀ s, exec i s = .next s := by
  cases i with
  | keyb _ | nonceb _ | setctr _ | din _ _ | go _ | illcmd _ => exact .inl rfl
  | clr => exact .inr (.inl rfl)
  | wrign _ _ | nop => exact .inr (.inr fun _ => rfl)
  | rdstat | rdlens | rdctr | rddin _ | rddout _ | rdzero _ | einit | eqr _ | efinal => simp [Instr.format] at h

/-- Only a write through the gate answers the fault entry. -/
theorem isGatedWrite_of_exec_raiseFault {i : Instr} {s : State} {f : FaultCode} (h : exec i s = .next (s.raiseFault f))
    (hfmt : i.format ≠ .eng) (h0 : s.errcode = 0) : isGatedWrite i = true := by
  have hcode {u : State} (hu : exec i s = .next u) : u.errcode = f.code := by
    injection hu.symm.trans h with hst
    exact congrArg State.errcode hst
  rcases write_cases (format_of_exec_raiseFault h hfmt h0) with hgate | rfl | hsame
  · exact hgate
  · exact absurd (hcode rfl).symm f.code_ne_zero
  · exact absurd ((hcode (hsame s)).symm.trans h0) f.code_ne_zero

/-! ### What an instruction does to `ERRCODE` (R220, R226) -/

theorem FaultCode.code_pos (f : FaultCode) : 1 ≤ f.code.toNat := by cases f <;> decide

section
variable (b : Byte) (s : State)

@[simp] theorem putKeyByte_errcode : (putKeyByte b s).errcode = s.errcode := by
  unfold putKeyByte; split <;> rfl
@[simp] theorem putKeyByte_ctr : (putKeyByte b s).ctr = s.ctr := by
  unfold putKeyByte; split <;> rfl
@[simp] theorem putNonceByte_errcode : (putNonceByte b s).errcode = s.errcode := by
  unfold putNonceByte; split <;> rfl
@[simp] theorem putNonceByte_ctr : (putNonceByte b s).ctr = s.ctr := by
  unfold putNonceByte; split <;> rfl

end

/-- An instruction keeps `ERRCODE`, or is CLR, or is a gated write that takes the fault entry in an unlocked core. -/
theorem exec_errcode_cases {i : Instr} {s t : State} (h : exec i s = .next t) :
    t.errcode = s.errcode ∨ (i = .clr ∧ t = s.clearAll) ∨
      (s.errcode = 0 ∧ isGatedWrite i = true ∧ ∃ f, t = s.raiseFault f) := by
  rcases exec_cases h with rfl | ⟨-, v, rfl⟩ | hclr | ⟨hfmt, h0, f, rfl⟩ |
    ⟨-, -, ⟨b, -, rfl⟩ | ⟨b, -, rfl⟩ | ⟨w, -, rfl⟩ | ⟨k, w, -, rfl⟩ | ⟨-, -, -, rfl⟩ | ⟨n, -, -, -, -, -, -, rfl⟩⟩ |
    ⟨-, -, rfl⟩ | ⟨-, -, -, -, rfl⟩ | ⟨-, -, rfl⟩
  · exact .inl rfl
  · exact .inl rfl
  · exact .inr (.inl hclr)
  · exact .inr (.inr ⟨h0, isGatedWrite_of_exec_raiseFault h hfmt h0, f, rfl⟩)
  · exact .inl (putKeyByte_errcode b s)
  · exact .inl (putNonceByte_errcode b s)
  all_goals exact .inl rfl

/-- A locked core leaves its `ERRCODE` only by CLR (R227, R228). -/
theorem exec_errcode_of_locked {i : Instr} {s t : State} (herr : s.errcode ≠ 0) (h : exec i s = .next t) :
    t.errcode = s.errcode ∨ (i = .clr ∧ t = s.clearAll) := by
  rcases exec_errcode_cases h with hsame | hclr | ⟨h0, -⟩
  · exact .inl hsame
  · exact .inr hclr
  · exact absurd h0 herr

/-- In an unlocked core what does not go through the gate records no fault. -/
theorem exec_errcode_of_not_gated {i : Instr} {s t : State} (h0 : s.errcode = 0) (hgate : isGatedWrite i = false)
    (h : exec i s = .next t) : t.errcode = 0 := by
  rcases exec_errcode_cases h with hsame | ⟨-, rfl⟩ | ⟨-, hgate', -⟩
  · exact hsame.trans h0
  · rfl
  · exact absurd (hgate'.symm.trans hgate) (by decide)

/-- Settles O27: the only case that leaves a code is the fault entry. -/
theorem recordingAFaultIsTheFaultEntry : Obligations.RecordingAFaultIsTheFaultEntry := by
  unfold Obligations.RecordingAFaultIsTheFaultEntry
  intro i s t h0 h herr
  rcases exec_errcode_cases h with hsame | ⟨-, rfl⟩ | ⟨-, -, f, rfl⟩
  · exact absurd (hsame.trans h0) herr
  · exact absurd rfl herr
  · exact ⟨f.code_pos, f.code_le, rfl⟩

/-! ### The order of the causes (R201, R204, R225) -/

/-- The code that the checks of GO record in an unlocked core, the first cause that holds. -/
theorem startBlock_errcode {s : State} (h0 : s.errcode = 0) (n : BitVec 7) : (startBlock n s).errcode =
    if s.keyCnt ≠ 32 then 1 else if s.nonceCnt ≠ 12 then 2 else if n.toNat ≠ 0 ∧ s.ctrOvf = true then 3 else 0 := by
  split_ifs with hkey hnonce hwrap
  · rw [startBlock_of_wrong_key hkey]
    rfl
  · rw [startBlock_of_wrong_nonce (not_not.mp hkey) hnonce]
    rfl
  · obtain ⟨hn, hovf⟩ := hwrap
    rw [startBlock_of_wrapped (not_not.mp hkey) (not_not.mp hnonce) (BitVec.toNat_ne_iff_ne.mp hn) hovf]
    rfl
  · by_cases hn : n = 0
    · subst hn
      rw [startBlock_of_empty (not_not.mp hkey) (not_not.mp hnonce)]
      exact h0
    · have hovf : s.ctrOvf = false :=
        Bool.eq_false_iff.mpr fun hovf => hwrap ⟨BitVec.toNat_ne_iff_ne.mpr hn, hovf⟩
      rw [startBlock_of_accepted (not_not.mp hkey) (not_not.mp hnonce) hn hovf]
      exact h0

/-- Settles O28: the cases of a write to `CTRL` in the order of R204, then the checks of GO; the lock by the cases of
`ERRCODE`. -/
theorem faultPriority : Obligations.FaultPriority := by
  unfold Obligations.FaultPriority
  refine ⟨fun v s h0 => ?_, fun i s t herr h => (exec_errcode_of_locked herr h).imp_right And.left⟩
  obtain ⟨hclr, hnop, -, hbusy, hillegal, hgo⟩ := controlWritesAreHandledInOrder v s
  by_cases hv : v = 0 ∨ v = 2
  · rw [if_pos hv]
    rcases hv with hv | hv
    · exact ⟨s, hnop hv, h0⟩
    · exact ⟨s.clearAll, hclr hv, rfl⟩
  obtain ⟨hv0, hv2⟩ := not_or.mp hv
  rw [if_neg hv]
  by_cases hidle : s.phase = .idle
  · rw [if_neg (not_not_intro hidle)]
    by_cases hword : goWord v = true <;> rw [goWord_iff] at hword
    · have ⟨_, _, _, hle⟩ := hword
      have hn : (BitVec.ofNat 7 (v.toNat / 256 % 128)).toNat = v.toNat / 256 % 128 := by simp
      refine ⟨_, (hgo h0 hidle hword).trans (exec_go_of_ready h0 hidle (hn.trans_le hle)), ?_⟩
      rw [if_neg (not_not_intro hword), startBlock_errcode h0, hn]
    · rw [if_pos hword]
      exact ⟨_, hillegal hv0 hv2 h0 hidle hword, rfl⟩
  · rw [if_pos hidle]
    exact ⟨_, hbusy hv0 hv2 h0 hidle, rfl⟩

/-- Settles O29: a busy core answers each gated write with `BusyWrite`, and nothing else records a fault. -/
theorem busyWriteIsRaisedByExactlyTheGatedWrites : Obligations.BusyWriteIsRaisedByExactlyTheGatedWrites := by
  unfold Obligations.BusyWriteIsRaisedByExactlyTheGatedWrites
  intro i s t h0 hbusy h
  rw [← isGatedWrite_iff]
  cases hgate : isGatedWrite i with
  | true =>
    obtain ⟨f, hgated⟩ := exec_isGatedWrite hgate
    rw [hgated, gated_of_busy h0 hbusy] at h
    injection h with h
    subst h
    exact ⟨iff_of_true rfl rfl, fun _ => ⟨rfl, rfl, rfl, rfl, rfl, rfl, rfl, rfl⟩, .inr rfl⟩
  | false =>
    have hnone : t.errcode = 0 := exec_errcode_of_not_gated h0 hgate h
    have hne : t.errcode ≠ 5 := by simp [hnone]
    exact ⟨iff_of_false hne (by decide), fun h5 => absurd h5 hne, .inl hnone⟩

/-! ### The lock and the ways out (R227, R228) -/

/-- Settles O30: a locked core ignores what goes through the gate, answers reads as any other, and is idle where the
invariants hold. -/
theorem lockedCoreIgnoresWrites : Obligations.LockedCoreIgnoresWrites := by
  unfold Obligations.LockedCoreIgnoresWrites
  refine fun s herr => ⟨fun i hwrite hclr => ?_, fun widx v => readsReturnTheWindowAndChangeNothing widx v s, fun hs => ?_⟩
  · rcases write_cases hwrite with hgate | rfl | hsame
    · obtain ⟨f, hgated⟩ := exec_isGatedWrite hgate
      rw [hgated, gated_of_locked herr]
    · exact absurd rfl hclr
    · exact hsame s
  · exact engineTurn_idle (hs.fault_clean herr).1

/-- An engine control word selects an Engine step only (R97). -/
theorem format_of_decodeEw {L : Lanes} {e : Ew} {i : Instr} (h : decodeEw L e = .ok i) : i.format = .eng := by
  rcases (decodeEw_eq_ok_iff L e i).mp h with ⟨-, rfl⟩ | ⟨-, -, -, rfl⟩ | ⟨-, rfl⟩
  all_goals rfl

/-- The Engine's turn leaves the `ERRCODE` of a locked core: it runs no CLR. -/
theorem engineTurn_errcode_of_locked {s t : State} (herr : s.errcode ≠ 0) (h : engineTurn s = .next t) :
    t.errcode = s.errcode := by
  by_cases hidle : s.phase = .idle
  · rw [engineTurn_idle hidle] at h
    injection h with h
    rw [h]
  · cases hdec : decode s.lanes (.ew (engineWord s)) with
    | ok i =>
      rw [engineTurn_of_decode hidle hdec] at h
      rcases exec_errcode_of_locked herr h with hsame | ⟨rfl, -⟩
      · exact hsame
      · exact absurd (format_of_decodeEw hdec) (by decide)
    | error e =>
      rw [engineTurn_of_reject hidle hdec] at h
      cases h

/-- Settles O31, by the event of the step: the Engine's turn keeps `ERRCODE`, an access changes it only as CLR. -/
theorem onlyClrAndResetUnlock : Obligations.OnlyClrAndResetUnlock := by
  unfold Obligations.OnlyClrAndResetUnlock
  intro s t herr h hne
  cases hs : s.script with
  | nil => exact absurd (engineTurn_errcode_of_locked herr ((step_empty hs).symm.trans h)) hne
  | cons e rest =>
    cases e with
    | access w =>
      rw [step_access hs] at h
      rcases exec_errcode_of_locked (s := { s with script := rest }) herr h with hsame | ⟨hclr, rfl⟩
      · exact absurd hsame hne
      · exact ⟨.inr ⟨w, rest, rfl, hclr⟩, clearAll_atReset _⟩
    | engine =>
      rw [step_engine hs] at h
      exact absurd (engineTurn_errcode_of_locked (s := { s with script := rest }) herr h) hne
    | reset =>
      rw [step_reset hs] at h
      injection h with h
      subst h
      exact ⟨.inl ⟨rest, rfl⟩, clearAll_atReset _⟩

/-! ### The writers of `CTR` (R25, R234) -/

/-- Settles O56: of the cases of an instruction only E.FINAL, SETCTR and CLR write `CTR`. -/
theorem counterChangesOnlyAtFinalAndHostWrites : Obligations.CounterChangesOnlyAtFinalAndHostWrites := by
  unfold Obligations.CounterChangesOnlyAtFinalAndHostWrites
  intro i s t h hne
  rcases exec_cases h with rfl | ⟨-, v, rfl⟩ | ⟨rfl, rfl⟩ | ⟨-, -, f, rfl⟩ |
    ⟨-, -, ⟨b, -, rfl⟩ | ⟨b, -, rfl⟩ | ⟨w, rfl, rfl⟩ | ⟨k, w, -, rfl⟩ | ⟨-, -, -, rfl⟩ | ⟨n, -, -, -, -, -, -, rfl⟩⟩ |
    ⟨-, -, rfl⟩ | ⟨-, -, -, -, rfl⟩ | ⟨rfl, -, rfl⟩
  · exact absurd rfl hne
  · exact absurd rfl hne
  · exact .inr (.inr ⟨rfl, rfl⟩)
  · exact absurd rfl hne
  · exact absurd (putKeyByte_ctr b s) hne
  · exact absurd (putNonceByte_ctr b s) hne
  · exact .inr (.inl rfl)
  · exact absurd rfl hne
  · exact absurd rfl hne
  · exact absurd rfl hne
  · exact absurd rfl hne
  · exact absurd rfl hne
  · exact .inl ⟨rfl, rfl⟩

end Sys2Proof.Machine

/-! PROOFS. The family of 70_reset_and_hazards.md: the window after Reset, the turns of a busy core, what a busy core keeps,
and what the sequencer reads. -/

namespace Sys2Proof.Machine

/-! ### The window after Reset (R44, R251) -/

/-- With all its flags clear and no fault recorded `STATUS` is zero. -/
theorem statusWord_eq_zero {s : State} (hidle : s.phase = .idle) (hvalid : s.valid = false) (herr : s.errcode = 0)
    (hovf : s.ctrOvf = false) : statusWord s = 0 := by
  simp [statusWord, bitAt, State.busy, State.err, hidle, hvalid, herr, hovf]

/-- With no byte delivered and no block begun `LENS` is zero. -/
theorem lensWord_eq_zero {s : State} (hkey : s.keyCnt = 0) (hnonce : s.nonceCnt = 0) (hblen : s.blen = 0) :
    lensWord s = 0 := by
  simp [lensWord, hkey, hnonce, hblen]

/-- Settles O10: each case of the window is zero at the reset values. -/
theorem everyRegisterReadsZeroAfterReset : Obligations.EveryRegisterReadsZeroAfterReset := by
  unfold Obligations.EveryRegisterReadsZeroAfterReset
  rintro s widx ⟨-, hkeyCnt, -, hnonceCnt, hctr, hovf, hdin, hdout, hblen, hvalid, herr, -, hidle, -⟩
  unfold windowRead
  split_ifs
  · exact statusWord_eq_zero hidle hvalid herr hovf
  · exact lensWord_eq_zero hkeyCnt hnonceCnt hblen
  · exact hctr
  · simp [hdin]
  · simp [hdout]
  · rfl

/-! ### The turns of a block (R255, R264) -/

/-- Settles O46: the reads and turns of `w` lead to the state after as many turns of the block, which is idle only after the
last. -/
theorem busyLastsStepsPerBlock : Obligations.BusyLastsStepsPerBlock := by
  unfold Obligations.BusyLastsStepsPerBlock
  intro s w rest hinit hq hw hturns
  obtain ⟨r, hrun⟩ := runSteps_afterTurns hinit hq rest hw s.reads (k := 0) (by rwa [Nat.zero_add])
  rw [Nat.zero_add] at hrun
  exact ⟨_, hrun, afterTurns_idle_iff hinit hturns⟩

/-! ### What a busy core keeps (R260) -/

/-- `E.FINAL` answers a next state only where it is enabled, and finishes the block. -/
theorem eq_finishBlock_of_exec_efinal {s t : State} (h : exec .efinal s = .next t) : t = finishBlock s := by
  by_cases hfinal : s.phase = .final
  · rw [execEfinal_eq hfinal] at h
    injection h with h
    exact h.symm
  · simp [exec, execEfinal, hfinal] at h

/-- All that an instruction other than CLR can do in a busy core: none of the writes that an idle core performs. -/
theorem exec_busy_cases {i : Instr} {s t : State} (hbusy : s.phase ≠ .idle) (hclr : i ≠ .clr) (h : exec i s = .next t) :
    (i = .efinal ∧ t = finishBlock s) ∨
    (i ≠ .efinal ∧ (t = s ∨ (∃ v, t = s.reply v) ∨ (∃ f, t = s.raiseFault f) ∨ t = loadMatrix s ∨ t = roundStep s)) := by
  by_cases hfinal : i = .efinal
  · subst hfinal
    exact .inl ⟨rfl, eq_finishBlock_of_exec_efinal h⟩
  · refine .inr ⟨hfinal, ?_⟩
    rcases exec_cases h with hsame | ⟨-, hreply⟩ | ⟨rfl, -⟩ | ⟨-, -, hfault⟩ | ⟨-, hidle, -⟩ | ⟨-, -, hload⟩ |
      ⟨-, -, -, -, hround⟩ | ⟨rfl, -⟩
    · exact .inl hsame
    · exact .inr (.inl hreply)
    · exact absurd rfl hclr
    · exact .inr (.inr (.inl hfault))
    · exact absurd hidle hbusy
    · exact .inr (.inr (.inr (.inl hload)))
    · exact .inr (.inr (.inr (.inr hround)))
    · exact absurd rfl hfinal

/-- Settles O55: none of the cases of a busy core writes an input, only `E.FINAL` writes the counter, and both `E.FINAL` and
the fault entry leave `PHASE` idle. -/
theorem busyCoreKeepsItsInputs : Obligations.BusyCoreKeepsItsInputs := by
  unfold Obligations.BusyCoreKeepsItsInputs
  intro i s t hbusy h hclr
  rcases exec_busy_cases hbusy hclr h with ⟨rfl, rfl⟩ | ⟨hfinal, rfl | ⟨v, rfl⟩ | ⟨f, rfl⟩ | rfl | rfl⟩
  · simp
  · simp [hfinal]
  · simp [hfinal]
  · simp
  · simp [hfinal]
  · simp [hfinal]

/-! ### The sequencer (R97, R129, R266) -/

/-- The two bits of `PHASE` tell which phase it is (R36). -/
theorem phaseOfBits_bits (p : Phase) : phaseOfBits p.bits = p := by cases p <;> rfl

/-- An engine control word tells the phase of its sequencer (R97). -/
theorem phase_eq_of_engineWord {s : State} {b : BitVec 2} (h : (engineWord s).extractLsb' 7 2 = b) :
    s.phase = phaseOfBits b := by
  rw [← h, engineWord_phase, phaseOfBits_bits]

/-- The Engine's turn read backwards: in which `PHASE` and `Q` it answers a next state, and what it has done there. -/
theorem engineTurn_next_cases {s t : State} (h : engineTurn s = .next t) :
    (s.phase = .idle ∧ t = s) ∨
    (s.phase = .init ∧ s.q = 0 ∧ t = loadMatrix s) ∨
    (s.phase = .round ∧ s.q.toNat < 80 ∧ s.lanes.admits s.q = true ∧ t = roundStep s) ∨
    (s.phase = .final ∧ s.q = 80 ∧ t = finishBlock s) := by
  have hnext {u : State} (hu : engineTurn s = .next u) : t = u := by
    injection h.symm.trans hu
  by_cases hidle : s.phase = .idle
  · exact .inl ⟨hidle, hnext (engineTurn_idle hidle)⟩
  cases hdec : decode s.lanes (.ew (engineWord s)) with
  | error e =>
    rw [engineTurn_of_reject hidle hdec] at h
    cases h
  | ok i =>
    have hq := engineWord_q s
    rcases (decodeEw_eq_ok_iff _ _ _).mp hdec with ⟨hword, -⟩ | ⟨hbits, hlt, hadmits, -⟩ | ⟨hword, -⟩
    · have hinit : s.phase = .init := phase_eq_of_engineWord (congrArg (·.extractLsb' 7 2) hword)
      rw [hword] at hq
      exact .inr (.inl ⟨hinit, hq.symm, hnext (engineTurn_init hinit hq.symm)⟩)
    · have hround : s.phase = .round := phase_eq_of_engineWord hbits
      rw [hq] at hlt hadmits
      exact .inr (.inr (.inl ⟨hround, hlt, hadmits, hnext (engineTurn_round hround hlt hadmits)⟩))
    · have hfinal : s.phase = .final := phase_eq_of_engineWord (congrArg (·.extractLsb' 7 2) hword)
      rw [hword] at hq
      exact .inr (.inr (.inr ⟨hfinal, hq.symm, hnext (engineTurn_final hfinal hq.symm)⟩))

/-- Settles O57: which case of the Engine's turn applies, and the `PHASE` and `Q` it leaves, are read from `PHASE`, `Q` and
`QR_LANES`. -/
theorem sequencerReadsNoData : Obligations.SequencerReadsNoData := by
  unfold Obligations.SequencerReadsNoData
  intro s t hphase hq hlanes s' h
  rcases engineTurn_next_cases h with ⟨hidle, rfl⟩ | ⟨hinit, hq0, rfl⟩ | ⟨hround, hlt, hadmits, rfl⟩ | ⟨hfinal, hq80, rfl⟩
  · exact ⟨t, engineTurn_idle (hphase ▸ hidle), hphase, hq⟩
  · exact ⟨loadMatrix t, engineTurn_init (hphase ▸ hinit) (hq ▸ hq0), rfl, rfl⟩
  · rw [hq] at hlt
    rw [hq, hlanes] at hadmits
    exact ⟨roundStep t, engineTurn_round (hphase ▸ hround) hlt hadmits, by simp [hq, hlanes], by simp [hq, hlanes]⟩
  · exact ⟨finishBlock t, engineTurn_final (hphase ▸ hfinal) (hq ▸ hq80), rfl, rfl⟩

end Sys2Proof.Machine
